-- ==== Sys2Proof/Word.lean ====
section
/-! DEFINITION. The bit-vector types of the block: the widths R5 fixes and the 40-bit command word of R53. -/

namespace Sys2Proof

/-- A 32-bit value: the code (`CODE_W`), a Duration held in state or in a command word (`DUR_W`), a pin mask
(`MASK_W`) or a signed waveform id (`ID_W`); R5. -/
abbrev Word32 := BitVec 32

/-- An 8-bit value: an operation code, a response code, the `fault` register; R26, R53. -/
abbrev Word8 := BitVec 8

/-- The one command format `C40`: `op` in bits 39 to 32, `arg` in bits 31 to 0; R53. -/
abbrev CommandWord := BitVec 40

/-- `2 ^ DUR_W`: a Duration below this fits a field of state, of a record or of a command word; R5, R69. -/
def durationLimit : Nat := 2 ^ 32

end Sys2Proof
end

