-- ==== Sys2Proof/Config.lean ====
section
/-! DEFINITION. What an instance of the block is built with (R5 to R11, R18 to R20) and the DRIVER's answers, which
are draws (R114 to R116). The parameters are plain data, held once in State and never written; the draws have no
body, so nothing can be proved of their values. -/

namespace Sys2Proof

/-- How one logical bit is rendered: burst then gap, or gap then burst; R20. A Duration of the profile is a natural
number of microseconds (R13); that it fits 32 bits is checked at construction (R69). -/
structure BitEncoding where
  burstDuration : Nat
  gapDuration : Nat
  burstFirst : Bool
deriving DecidableEq, Repr

/-- The ProtocolProfile of R18. Frequency and duty cycle are exact rationals (R11, D4). -/
structure Profile where
  frequencyHz : Rat
  dutyCycle : Rat
  leadingPulse : Nat
  leadingGap : Nat
  logicalOne : BitEncoding
  logicalZero : BitEncoding
  /-- Absent, or present with a Duration. -/
  trailingPulse : Option Nat
deriving DecidableEq, Repr

/-- `CARRIER_NUMERICS`: the arithmetic of the carrier derivation; R11, R70, U1. -/
inductive Numerics where
  /-- This spec's own choice: exact rationals, `round` to nearest with ties away from zero; D4. -/
  | exact
  /-- Another arithmetic: a binary float format of `precision` significand bits (U2), with the two rounded results it
  yields for this instance's profile, the cycle period and the on duration. The profile is fixed for the instance's
  life, so two numbers say all that its arithmetic can; which ones are admissible is `Numerics.admissible`. -/
  | given (precision period onDuration : Nat)
deriving DecidableEq, Repr

/-- The protocol variant that supplies the payload; R10, R87. -/
inductive Encoder where
  /-- The one variant the source defines; R89. -/
  | necExtended
  /-- A pluggable encoder, as the function from the code to the command words it issues in the payload step, written as
  its graph: the words for a code are those of the code's first row, and none for a code with no row. A conforming
  encoder's words are all APPEND_BIT (R87); any other word is kept, because R87 says what then happens. -/
  | plugged (rows : List (Word32 × List CommandWord))
deriving DecidableEq, Repr

/-- The parameters of one instance, fixed for its whole life; R17 and R5 to R11. -/
structure Params where
  profile : Profile
  /-- `TX_PIN`, below `MASK_W = 32`; R6. -/
  txPin : Fin 32
  /-- `TL_CAP`: a number of records, or unbounded (`none`); R7. -/
  tlCap : Option Nat
  /-- `POLL_INTERVAL` in microseconds; R8. -/
  pollInterval : Nat
  encoder : Encoder
  numerics : Numerics
deriving DecidableEq, Repr

/-- The status `DrvWaveSend` answers; R115. -/
inductive SendStatus where
  | ok
  | badId
  | badMode
deriving DecidableEq, Repr, Inhabited

/-- The answer of one busy query; R116. -/
inductive BusyAnswer where
  | busy
  | idle
  | hwFault
deriving DecidableEq, Repr, Inhabited

/-- The id `DrvWaveCreate` answers at draw number `n`, when no answer was given as an input: any signed 32-bit value
(R114, U7). -/
opaque Config.drawCreate (n : Nat) : Word32

/-- The status `DrvWaveSend` answers at draw number `n`, when no answer was given as an input (R115, U7). -/
opaque Config.drawSend (n : Nat) : SendStatus

/-- The answer of the busy query at draw number `n`, when no answer was given as an input (R116, U7). -/
opaque Config.drawBusy (n : Nat) : BusyAnswer

end Sys2Proof
end

