-- ==== Sys2Proof/Syntax.lean ====
section
/-! DEFINITION. The six operations of PTB-NEC/1 (one constructor per row of the opcode table) and the three agents
that can issue a command. -/

namespace Sys2Proof

/-- The operations of R54, with the operands of R55 to R57. Every value of an operand type is a legal operand: every
32-bit pattern is a legal Duration (R55), a logical bit is 0 or 1 (R56), the others take none (R57). -/
inductive Instr where
  /-- APPEND_CARRIER `dur`, a carrier burst; R74. -/
  | appendCarrier (dur : Word32)
  /-- APPEND_GAP `dur`, one gap record; R75. -/
  | appendGap (dur : Word32)
  /-- APPEND_BIT `b`, one logical bit of the profile; R77. -/
  | appendBit (b : Bool)
  /-- PAYLOAD, the encoder's bit sequence; R88. -/
  | payload
  /-- BUILD, the one-shot build; R80. -/
  | build
  /-- SEND, the transmission request; R93. -/
  | send
deriving DecidableEq, Repr

/-- The pseudo-instructions of R64: each is a fixed expansion into operations, and none has a word of its own. -/
inductive Pseudo where
  /-- APPEND_ONE. -/
  | appendOne
  /-- APPEND_ZERO. -/
  | appendZero
  /-- APPEND_BYTE `v`. -/
  | appendByte (v : Word8)
deriving DecidableEq, Repr

/-- The agents that issue commands: HOST on the command port, BUILDER inside BUILD, ENCODER inside PAYLOAD; R4, R108.
(The fourth agent of R4, the DRIVER, issues no command: it only answers.) -/
inductive Issuer where
  | host
  | builder
  | encoder
deriving DecidableEq, Repr

end Sys2Proof
end

