-- ==== Sys2Proof/WellFormed.lean ====
section
/-! DEFINITION. Which command words spell an operation (the match and mask values of R62), and which parameters are
legal ones. The operand types of Instr leave no ill-formed instruction, so the checks are on words and on parameters. -/

namespace Sys2Proof

/-- One row of the opcode table: a word spells the operation when its bits under `mask` equal `pattern`; R62. -/
structure OpcodeRow where
  mnemonic : String
  pattern : CommandWord
  mask : CommandWord
deriving DecidableEq, Repr

/-- The match and mask values of R62. -/
def opcodeTable : List OpcodeRow :=
  [ ⟨"APPEND_CARRIER", 0x0100000000#40, 0xFF00000000#40⟩,
    ⟨"APPEND_GAP", 0x0200000000#40, 0xFF00000000#40⟩,
    ⟨"APPEND_BIT", 0x0300000000#40, 0xFFFFFFFFFE#40⟩,
    ⟨"PAYLOAD", 0x0400000000#40, 0xFFFFFFFFFF#40⟩,
    ⟨"BUILD", 0x0500000000#40, 0xFFFFFFFFFF#40⟩,
    ⟨"SEND", 0x0600000000#40, 0xFFFFFFFFFF#40⟩ ]

/-- Whether a row of the opcode table takes the word. -/
def OpcodeRow.takes (r : OpcodeRow) (w : CommandWord) : Bool := w &&& r.mask == r.pattern

/-- Whether a word spells an operation: its `op` is not reserved (R58) and its reserved argument bits are zero (R59). -/
def wordWellFormed (w : CommandWord) : Bool := opcodeTable.any (fun r => r.takes w)

/-- The Durations of a profile, the trailing pulse's when present; R69. -/
def Profile.durations (p : Profile) : List Nat :=
  [p.leadingPulse, p.leadingGap, p.logicalOne.burstDuration, p.logicalOne.gapDuration,
    p.logicalZero.burstDuration, p.logicalZero.gapDuration] ++ p.trailingPulse.toList

/-- Whether every Duration field of the profile fits `DUR_W` bits; R69. -/
def Profile.durationsFit (p : Profile) : Bool := p.durations.all (fun d => decide (d < durationLimit))

/-- The constraints R18 puts on a profile, with the width bound of R69. -/
def Profile.wellFormed (p : Profile) : Bool :=
  decide (0 < p.frequencyHz) && decide (0 < p.dutyCycle) && decide (p.dutyCycle < 1) && p.durationsFit

/-- A positive natural number without its factors of two; 0 stays 0. -/
def oddPart (n : Nat) : Nat := n / Nat.gcd n (2 ^ Nat.log2 n)

/-- Whether a binary float of `precision` significand bits holds a number exactly, its exponent unbounded; R70. -/
def floatHolds (precision : Nat) (x : Rat) : Bool :=
  decide (oddPart x.den = 1) && decide (oddPart x.num.natAbs < 2 ^ precision)

/-- Whether an arithmetic of `precision` significand bits may round `x` to `n`. Where it holds its operand exactly, `n`
is a nearest natural number, either one at a tie. Where it does not, the error of the float operations comes on top: at
most four roundings, each within `2 / 2 ^ precision` of its value (log 22); R70. -/
def mayRoundTo (precision : Nat) (operandHeld : Bool) (x : Rat) (n : Nat) : Bool :=
  let slack : Rat := if operandHeld then 1 / 2 else 1 / 2 + 8 * x / 2 ^ precision
  decide (x - slack ≤ n) && decide ((n : Rat) ≤ x + slack)

/-- The least precision of a float format: 38000 is `2375 * 2 ^ 4`, and R71 has it exact in every one; DEDUCED (log 22). -/
def leastPrecision : Nat := 12

/-- What R70 asks of an arithmetic for a profile: `on` at most the period, the period nearest to one million over the
frequency and `on` nearest to the period times the duty cycle, up to the float error where the float does not hold the
frequency or the duty cycle exactly. A profile that fails R66's first two checks has neither quotient nor product. -/
def Numerics.admissible (n : Numerics) (prof : Profile) : Bool :=
  match n with
  | .exact => true
  | .given precision period onDuration =>
    decide (leastPrecision ≤ precision) && decide (onDuration ≤ period) &&
      (!(decide (0 < prof.frequencyHz) && decide (0 < prof.dutyCycle) && decide (prof.dutyCycle < 1)) ||
        (mayRoundTo precision (floatHolds precision prof.frequencyHz) (1000000 / prof.frequencyHz) period &&
          mayRoundTo precision (floatHolds precision prof.dutyCycle) ((period : Rat) * prof.dutyCycle) onDuration))

/-- Parameters an instance can have. A profile that breaks R18 is not excluded: construction reports it (R66, R121). -/
def Params.wellFormed (p : Params) : Bool := p.numerics.admissible p.profile

end Sys2Proof
end

