-- ==== Sys2Proof/Machine/Profile.lean ====
section
/-! DEFINITION. CarrierProfile: the profile of the NEC-extended variant (R19), the derivation of the carrier timing
(R65 to R70) and the cycle count (R72). -/

namespace Sys2Proof.Machine

/-- The derived carrier timing, three Durations of 32 bits; R22. -/
structure Carrier where
  cyclePeriod : Word32
  onDuration : Word32
  offDuration : Word32
deriving DecidableEq, Repr

/-- `NEC_PROFILE`, transcribed from R19 (the document's figures as written, U13). -/
def necProfile : Profile where
  frequencyHz := 38000
  dutyCycle := 1 / 2
  leadingPulse := 9000
  leadingGap := 4500
  logicalOne := { burstDuration := 562, gapDuration := 1686, burstFirst := true }
  logicalZero := { burstDuration := 562, gapDuration := 562, burstFirst := true }
  trailingPulse := some 562

/-- The parameters at their defaults of R5 to R11. `TX_PIN` has none: 0 is a DESIGN CHOICE (log 14). -/
def defaultParams : Params where
  profile := necProfile
  txPin := 0
  tlCap := none
  pollInterval := 100000
  encoder := .necExtended
  numerics := .exact

/-- `round(x)` for `x ≥ 0`: the nearest integer, ties away from zero, `floor(x + 1/2)`; R13, D4. -/
def roundHalfAway (x : Rat) : Nat := (x + 1 / 2).floor.toNat

/-- `cycle_period` before the checks: the quotient of one million by the frequency, rounded; R67. -/
def derivedPeriod (n : Numerics) (f : Rat) : Nat :=
  match n with
  | .exact => roundHalfAway (1000000 / f)
  | .given _ period _ => period

/-- `on_duration`: the already rounded period times the duty cycle, rounded; R68, D5. -/
def derivedOn (n : Numerics) (period : Nat) (d : Rat) : Nat :=
  match n with
  | .exact => roundHalfAway ((period : Rat) * d)
  | .given _ _ onDuration => onDuration

/-- `DeriveCarrier` of R66: the four checks in the source's order, the first that fails giving its sub-reason (R99),
and `off_duration` by subtraction (R68). -/
def deriveCarrier (n : Numerics) (prof : Profile) : Except Nat Carrier :=
  if ¬ 0 < prof.frequencyHz then .error 1
  else if ¬ (0 < prof.dutyCycle ∧ prof.dutyCycle < 1) then .error 2
  else
    let period := derivedPeriod n prof.frequencyHz
    let onDur := derivedOn n period prof.dutyCycle
    if period = 0 then .error 3
    else if durationLimit ≤ period ∨ prof.durationsFit = false then .error 4
    else .ok
      { cyclePeriod := BitVec.ofNat 32 period
        onDuration := BitVec.ofNat 32 onDur
        offDuration := BitVec.ofNat 32 (period - onDur) }

/-- `num_cycles(duration)`, the number of whole carrier cycles in a Duration; the remainder is dropped; R72. -/
def numCycles (c : Carrier) (duration : Nat) : Nat := duration / c.cyclePeriod.toNat

/-- A Duration of the profile as the `DUR_W`-bit field of a record; every profile that constructs fits (R69). -/
def durationField (d : Nat) : Word32 := BitVec.ofNat 32 d

end Sys2Proof.Machine
end

