-- ==== Sys2Proof/Machine/State.lean ====
section
/-! DEFINITION. The state of one instance of the block (10_state.md), with what stands at its boundary: the inputs
still to be taken, the DRIVER as far as the block's rules see it, and the history of driver calls (R33). -/

namespace Sys2Proof.Machine

/-- The lifecycle state of the waveform; R24, R109. -/
inductive WState where
  | unbuilt
  | built
  | failed
deriving DecidableEq, Repr

/-- One record of the timeline: pins to assert, pins to clear, microseconds to hold; R36. -/
structure Pulse where
  set : Word32
  clr : Word32
  delay : Word32
deriving DecidableEq, Repr

/-- The only memory: the timeline, its records in index order. The index of a record is its place in the list, so the
indices in use are `0 .. tl_len - 1` and two equal timelines are equal lists; R23, R35. -/
abbrev Memory := List Pulse

/-- The mode of a transmission request; the block always passes the one-shot mode; R93, R115. -/
inductive SendMode where
  | oneShot
deriving DecidableEq, Repr

/-- One entry of the event history: a driver call with its answer, or a wait of the poll loop; R33, R94, R112. -/
inductive Event where
  /-- `DrvConfigPin(pin)`, called by the HOST; R113. -/
  | configPin (pin : Fin 32)
  /-- `DrvClear()`, called by the HOST; R113. -/
  | clearBuffer
  /-- `DrvWaveCreate(records) -> id`; R114. -/
  | waveCreate (records : Memory) (id : Word32)
  /-- `DrvWaveSend(id, mode) -> st`; R115. -/
  | waveSend (id : Word32) (mode : SendMode) (st : SendStatus)
  /-- `DrvBusy() -> q`; R116. -/
  | busyQuery (q : BusyAnswer)
  /-- `Wait(t)`, microseconds; R16, R94. -/
  | wait (t : Nat)
  /-- `DrvRelease(id)`; R116, R122. -/
  | release (id : Word32)
deriving DecidableEq, Repr

/-- One thing that reaches the block from outside, taken one a step; R127. -/
inductive Input where
  /-- The HOST calls `DrvConfigPin(TX_PIN)`; R113. -/
  | configPin
  /-- The HOST calls `DrvClear()`; R113. -/
  | clearBuffer
  /-- The HOST resets the instance with the construction input `code_in`; R119, R120. -/
  | reset (codeIn : Word32)
  /-- A command word and the agent that issues it; R53, R108. -/
  | command (issuer : Issuer) (word : CommandWord)
deriving DecidableEq, Repr

/-- The DRIVER as far as the block's rules see it; R33. The three lists are answers already known, in the order they
will be given; where one is empty the answer is the next opaque draw. -/
structure Driver where
  /-- `DrvConfigPin` has been called; R113. -/
  pinConfigured : Bool
  /-- `DrvClear` has been called; R113. -/
  bufferCleared : Bool
  /-- Answers of `DrvWaveCreate`. -/
  creates : List Word32
  /-- Answers of `DrvWaveSend`. -/
  sends : List SendStatus
  /-- Answers of `DrvBusy`. -/
  polls : List BusyAnswer
  /-- How many opaque draws have been taken. -/
  draws : Nat
deriving DecidableEq, Repr

/-- Why the machine stops with a fault. (A fault of the block, R98, is no such stop: the block records it and goes
on, R106.) -/
inductive Fault where
  /-- Raised by an append whose record would be written while `wstate` is not Unbuilt: `MemWrite` is not defined there
  (R15, R38). Safe: no next state is claimed. -/
  | timelineReadOnly
deriving DecidableEq, Repr

/-- Why the machine gives an instruction no meaning. -/
inductive Refusal where
  /-- Raised by an arm of `exec` whose instruction has no meaning yet. Safe. -/
  | notModelled (mnemonic : String)
  /-- Raised by BUILD when the driver's one-time initialisation is not complete: outside the spec (R124, U5). Safe. -/
  | driverNotReady
  /-- Raised by a carrier burst when `carrier` holds no value (R121, U8). Safe. -/
  | carrierNoValue
  /-- Raised by SEND in a state that is Built but holds no waveform id, which no run reaches (R25, U8). Safe. -/
  | waveIdNoValue
deriving DecidableEq, Repr

/-- The state of the block and its boundary. -/
structure State where
  /-- The instance's parameters; no step writes them; R17, R18. -/
  params : Params
  /-- The encoder value; R21. -/
  code : Word32
  /-- The derived carrier timing; no value after a validation fault; R22, R121. -/
  carrier : Option Carrier
  /-- The timeline; `tl_len` is its length; R23. -/
  timeline : Memory
  /-- The lifecycle state; R24. -/
  wstate : WState
  /-- The waveform id, signed; a value only while Built; R25. -/
  waveId : Option Word32
  /-- The sticky fault bits; R26. -/
  fault : Word8
  /-- The information word of the most recent fault, signed; no value before the first; R27. -/
  finfo : Option Word32
  /-- The response code of the last command that was answered; R53. -/
  response : Option Word8
  /-- The agent that issued the current command; R53, R108. -/
  issuer : Issuer
  /-- A SEND is in its poll loop; R93, R95. -/
  polling : Bool
  /-- What is still to reach the block from outside; R127. -/
  inputs : List Input
  /-- The DRIVER; R33. -/
  driver : Driver
  /-- Every driver call and wait so far, oldest first; R33. -/
  history : List Event
deriving DecidableEq, Repr

/-- `tl_len`, the number of records the timeline holds; R23. -/
def State.tlLen (s : State) : Nat := s.timeline.length

/-- The machine right after its first reset, with the parameters at their defaults (R34, R71). `code_in` and `TX_PIN`
are inputs the spec leaves to the caller, and that the HOST has already initialised the driver follows the boot order
of R125: DESIGN CHOICE (log 1, 10, 14). -/
def State.reset : State where
  params := defaultParams
  code := 0#32
  carrier := some { cyclePeriod := 26#32, onDuration := 13#32, offDuration := 13#32 }
  timeline := []
  wstate := .unbuilt
  waveId := none
  fault := 0#8
  finfo := none
  response := none
  issuer := .host
  polling := false
  inputs := []
  driver :=
    { pinConfigured := true, bufferCleared := true, creates := [], sends := [], polls := [], draws := 0 }
  history := []

end Sys2Proof.Machine
end

