-- ==== Sys2Proof/Machine/Flags.lean ====
section
/-! DEFINITION. The status flags (R30): the numbers of the lifecycle states (R24), the fault causes with their codes
(R98), and recording a fault in `fault` and `finfo` (R26, R27). -/

namespace Sys2Proof.Machine

/-- The encoding of the lifecycle state as an information word; R24. -/
def wstateCode : WState → Word32
  | .unbuilt => 0#32
  | .built => 1#32
  | .failed => 2#32

/-- The seven faults of the block; R98. -/
inductive Cause where
  | validation
  | lifecycle
  | hwConstruct
  | transmission
  | illegalCmd
  | notBuilt
  | tlOverflow
deriving DecidableEq, Repr

/-- A fault with the information word recorded for it; R16, R98. -/
structure Raise where
  cause : Cause
  info : Word32
deriving DecidableEq, Repr

/-- The cause code: the bit number in `fault` and the response code; R98. -/
def causeCode : Cause → Nat
  | .validation => 1
  | .lifecycle => 2
  | .hwConstruct => 3
  | .transmission => 4
  | .illegalCmd => 5
  | .notBuilt => 6
  | .tlOverflow => 7

/-- The bit of `fault` a cause sets; R26. -/
def faultBit (c : Cause) : Word8 := 1#8 <<< causeCode c

/-- Set the sticky bit of a fault and write its information word; R103 (2), (3). -/
def State.recordFault (r : Raise) (s : State) : State :=
  { s with fault := s.fault ||| faultBit r.cause, finfo := some r.info }

end Sys2Proof.Machine
end

