-- ==== Sys2Proof/Decode.lean ====
section
/-! DEFINITION. The decoder of R62, total on all words, its inverse, and the decoder as the host's table numbers bits. -/

namespace Sys2Proof

/-- Why a word spells no operation. Both are `ILLEGAL(op)` of R62; the machine raises `IllegalCmd(op)` for either. -/
inductive DecodeError where
  /-- The operation code is reserved; R58. -/
  | reservedOp (op : Word8)
  /-- A reserved argument bit is not zero; R59. -/
  | reservedArg (op : Word8)
deriving DecidableEq, Repr

/-- The operation code of an illegal word. -/
def DecodeError.opcode : DecodeError → Word8
  | .reservedOp op => op
  | .reservedArg op => op

/-- `w[39:32]`; R53. -/
def opField (w : CommandWord) : Word8 := w.extractLsb' 32 8

/-- `w[31:0]`; R53. -/
def argField (w : CommandWord) : Word32 := w.extractLsb' 0 32

/-- An operation without an operand: its whole argument is reserved; R57, R59. -/
def decodePlain (op : Word8) (arg : Word32) (i : Instr) : Except DecodeError Instr :=
  if arg = 0#32 then .ok i else .error (.reservedArg op)

/-- The decoder of R62. -/
def decode (w : CommandWord) : Except DecodeError Instr :=
  let op := opField w
  let arg := argField w
  match op.toNat with
  | 1 => .ok (.appendCarrier arg)
  | 2 => .ok (.appendGap arg)
  | 3 => if arg.extractLsb' 1 31 = 0#31 then .ok (.appendBit (arg.getLsbD 0)) else .error (.reservedArg op)
  | 4 => decodePlain op arg .payload
  | 5 => decodePlain op arg .build
  | 6 => decodePlain op arg .send
  | _ => .error (.reservedOp op)

/-- The operation code of an instruction; R54. -/
def Instr.opcode : Instr → Word8
  | .appendCarrier _ => 0x01#8
  | .appendGap _ => 0x02#8
  | .appendBit _ => 0x03#8
  | .payload => 0x04#8
  | .build => 0x05#8
  | .send => 0x06#8

/-- The argument of an instruction, reserved bits zero; R55 to R57. -/
def Instr.argument : Instr → Word32
  | .appendCarrier dur => dur
  | .appendGap dur => dur
  | .appendBit b => (BitVec.ofBool b).setWidth 32
  | .payload => 0#32
  | .build => 0#32
  | .send => 0#32

/-- The inverse of the decoder, `{op, arg}` with reserved bits zero; R62. -/
def encode (i : Instr) : CommandWord := i.opcode ++ i.argument

/-- The instruction the decoder reads from a word given as a number, bit 0 the least significant bit of the 40-bit
word, bits above `nbits` zero. A command is one 40-bit value passed whole, so there is no byte order (R43, R53). -/
def decodeTableWord (nbits w : Nat) : Option Instr :=
  (decode (BitVec.ofNat 40 (w % 2 ^ nbits))).toOption

/-- The expansion of a pseudo-instruction; APPEND_BYTE appends its bits least significant first; R64. -/
def Pseudo.expand : Pseudo → List Instr
  | .appendOne => [.appendBit true]
  | .appendZero => [.appendBit false]
  | .appendByte v => (List.range 8).map (fun k => .appendBit (v.getLsbD k))

/-- An instruction as R63 writes it, its operand in decimal. -/
def Instr.assembly : Instr → String
  | .appendCarrier dur => "APPEND_CARRIER " ++ toString dur.toNat
  | .appendGap dur => "APPEND_GAP " ++ toString dur.toNat
  | .appendBit b => "APPEND_BIT " ++ toString b.toNat
  | .payload => "PAYLOAD"
  | .build => "BUILD"
  | .send => "SEND"

end Sys2Proof
end

