-- ==== Sys2Proof/Machine/Operands.lean ====
section
/-! DEFINITION. What the operations read: the profile's bit encodings (R77), the records a burst and a gap are made
of (R37, R74, R75), the encoder's bits (R87, R89) and the driver's answers (R114 to R116). -/

namespace Sys2Proof.Machine

/-- `PIN_MASK = 1 << TX_PIN`; R6. -/
def pinMask (pin : Fin 32) : Word32 := 1#32 <<< pin.val

/-- The assert record; R37. -/
def assertRecord (pin : Fin 32) (c : Carrier) : Pulse :=
  { set := pinMask pin, clr := 0#32, delay := c.onDuration }

/-- The clear record; R37. -/
def clearRecord (pin : Fin 32) (c : Carrier) : Pulse :=
  { set := 0#32, clr := pinMask pin, delay := c.offDuration }

/-- The gap record, its clear mask empty; R37, D8. -/
def gapRecord (dur : Word32) : Pulse := { set := 0#32, clr := 0#32, delay := dur }

/-- The records of `n` carrier cycles: an assert record, then a clear record, `n` times; R74. -/
def burstRecords (pin : Fin 32) (c : Carrier) : Nat → List Pulse
  | 0 => []
  | n + 1 => assertRecord pin c :: clearRecord pin c :: burstRecords pin c n

/-- The profile's encoding of a logical bit; R56, R77. -/
def bitEncoding (prof : Profile) (b : Bool) : BitEncoding := if b then prof.logicalOne else prof.logicalZero

/-- The bits of an 8-bit group, bit 0 first; R42, R89. -/
def groupBits (g : Word8) : List Bool := (List.range 8).map (fun k => g.getLsbD k)

/-- `NecBits(code)`: the three low bytes of the code from the top one down, then the complement of the lowest; R89. -/
def necBits (code : Word32) : List Bool :=
  groupBits ((code >>> 16).setWidth 8) ++ groupBits ((code >>> 8).setWidth 8) ++ groupBits (code.setWidth 8) ++
    groupBits ((~~~code).setWidth 8)

/-- What a word the ENCODER issues asks for: a logical bit, or an operation code it may not issue (R87, R105, R108). -/
def encoderCommand (w : CommandWord) : Except Word8 Bool :=
  match decode w with
  | .ok (.appendBit b) => .ok b
  | .ok i => .error i.opcode
  | .error e => .error e.opcode

/-- The words a plugged encoder issues for a code: those of its first row for that code, none without a row; R87. -/
def pluggedWords (code : Word32) : List (Word32 × List CommandWord) → List CommandWord
  | [] => []
  | (c, ws) :: rows => if c = code then ws else pluggedWords code rows

/-- What the encoder variant issues for a code, in order; R87, R88. -/
def encoderCommands (e : Encoder) (code : Word32) : List (Except Word8 Bool) :=
  match e with
  | .necExtended => (necBits code).map .ok
  | .plugged rows => (pluggedWords code rows).map encoderCommand

/-- The next answer of `DrvWaveCreate`: the next one given, else the next draw; R114. -/
def Driver.takeCreate (d : Driver) : Word32 × Driver :=
  match d.creates with
  | id :: rest => (id, { d with creates := rest })
  | [] => (Config.drawCreate d.draws, { d with draws := d.draws + 1 })

/-- The next answer of `DrvWaveSend`; R115. -/
def Driver.takeSend (d : Driver) : SendStatus × Driver :=
  match d.sends with
  | st :: rest => (st, { d with sends := rest })
  | [] => (Config.drawSend d.draws, { d with draws := d.draws + 1 })

/-- The next answer of `DrvBusy`; R116. -/
def Driver.takePoll (d : Driver) : BusyAnswer × Driver :=
  match d.polls with
  | q :: rest => (q, { d with polls := rest })
  | [] => (Config.drawBusy d.draws, { d with draws := d.draws + 1 })

/-- `drv_ready`: both primitives of the one-time initialisation have been called; R113, R124. -/
def Driver.ready (d : Driver) : Bool := d.pinConfigured && d.bufferCleared

/-- The number of a status; R115. -/
def sendStatusCode : SendStatus → Word32
  | .ok => 0#32
  | .badId => 1#32
  | .badMode => 2#32

end Sys2Proof.Machine
end

