-- ==== Sys2Proof/Machine/Ops.lean ====
section
/-! DEFINITION. The shared operations: reading and appending records (R15, R73), answering a command and taking a
fault (R103), who may issue what (R108), the append operations the block's sequencers use (R74 to R76), a driver call
and the reset sequence (R120). -/

namespace Sys2Proof.Machine

/-- The outcome of a step of this machine. -/
abbrev Result := Host.Outcome State Fault Refusal

/-! ## The timeline -/

/-- Whether one more record fits the capacity; R73. -/
def hasRoom (cap : Option Nat) (m : Memory) : Bool :=
  match cap with
  | none => true
  | some n => decide (m.length + 1 ≤ n)

/-- The form every timeline keeps: no more records than the capacity (R23), no record with one pin in both masks
(R37). -/
def Memory.wf (cap : Option Nat) (m : Memory) : Bool :=
  (match cap with
    | none => true
    | some n => decide (m.length ≤ n)) &&
  m.all (fun p => p.set &&& p.clr == 0#32)

/-- `MemRead(i, n)`: the records at indices `i .. i + n - 1`; defined when `i + n ≤ tl_len`; R15. -/
def memRead (i n : Nat) (m : Memory) : List Pulse := (m.drop i).take n

/-- How a run of appends ended. -/
inductive AppendEnd where
  /-- Every record was written. -/
  | all
  /-- A record did not fit the capacity; R73. -/
  | overflow
  /-- A record would have been written to a timeline that is not Unbuilt; R15. -/
  | readOnly
deriving DecidableEq, Repr

/-- Append records one at a time: each is checked against the capacity, then written at the end, where `writable` says
that `wstate` is Unbuilt. Records before the one that does not fit stay; R15, R73, C8. -/
def appendRecords (cap : Option Nat) (writable : Bool) : List Pulse → Memory → Memory × AppendEnd
  | [], m => (m, .all)
  | p :: ps, m =>
    if hasRoom cap m then
      if writable then appendRecords cap writable ps (m ++ [p]) else (m, .readOnly)
    else (m, .overflow)

/-! ## Answering a command -/

/-- Answer the command with `OK`; R53. -/
def State.respondOk (s : State) : State := { s with response := some 0#8 }

/-- Whether a fault raised now is raised inside BUILD after its lifecycle check: the command was issued by the BUILDER
or the ENCODER, which act only there, and BUILD runs only while Unbuilt; R80, R103 (4), R108. -/
def State.inBuild (s : State) : Bool := s.issuer != .host && s.wstate == .unbuilt

/-- `raise F(info)`, the block's one way of taking a fault: record it, make the waveform unusable when it happens
inside BUILD, answer the fault's code. Nothing is saved and nothing vectored; there is no return; R103, R106. -/
def State.raise (inBuild : Bool) (r : Raise) (s : State) : State :=
  { s.recordFault r with
    wstate := if inBuild then .failed else s.wstate
    response := some (BitVec.ofNat 8 (causeCode r.cause)) }

/-- How far an operation came. -/
inductive Effect where
  /-- It ran to its end. -/
  | done (s : State)
  /-- A `raise` ended it; the state is that before R103's writes. -/
  | raised (r : Raise) (s : State)
  /-- The model stops. -/
  | stopped (f : Fault)
  /-- The model gives it no meaning here. -/
  | refused (r : Refusal)
deriving DecidableEq, Repr

/-- One line of pseudocode after another: the second runs only when the first came to its end; R16. -/
def Effect.andThen (e : Effect) (f : State → Effect) : Effect :=
  match e with
  | .done s => f s
  | .raised r s => .raised r s
  | .stopped x => .stopped x
  | .refused x => .refused x

/-- The end of a command: its last step and its answer when it came to its end, or the fault that ended it; R53,
R103. -/
def Effect.finishWith (inBuild : Bool) (last : State → State) : Effect → Result
  | .done s => .next (last s)
  | .raised r s => .next (s.raise inBuild r)
  | .stopped f => .fault f
  | .refused r => .refused r

/-- The end of a command that answers `OK` when it came to its end. -/
def Effect.finish (inBuild : Bool) (e : Effect) : Result := e.finishWith inBuild State.respondOk

/-- Which agent may issue which operation; R108. -/
def mayIssue (i : Instr) (a : Issuer) : Bool :=
  match i with
  | .appendCarrier _ => a == .builder
  | .appendGap _ => a == .builder
  | .appendBit _ => a == .encoder
  | .payload => a == .builder
  | .build => a == .host
  | .send => a == .host

/-- Raise `IllegalCmd(op)`; R58, R104. -/
def State.raiseIllegal (op : Word8) (s : State) : State :=
  s.raise s.inBuild { cause := .illegalCmd, info := op.setWidth 32 }

/-- Run an operation if its issuer may issue it, else raise `IllegalCmd`; R105 (2), R108. -/
def issue (i : Instr) (body : State → Result) (s : State) : Result :=
  if mayIssue i s.issuer then body s else .next (s.raiseIllegal i.opcode)

/-! ## The append operations -/

/-- Append records to the state's timeline; R73. -/
def appendAll (ps : List Pulse) (s : State) : Effect :=
  match appendRecords s.params.tlCap (s.wstate == .unbuilt) ps s.timeline with
  | (m, .all) => .done { s with timeline := m }
  | (m, .overflow) => .raised { cause := .tlOverflow, info := 0#32 } { s with timeline := m }
  | (_, .readOnly) => .stopped .timelineReadOnly

/-- `AppendCarrier(dur)`; R74. -/
def appendCarrier (dur : Nat) (s : State) : Effect :=
  match s.carrier with
  | none => .refused .carrierNoValue
  | some c => appendAll (burstRecords s.params.txPin c (numCycles c dur)) s

/-- `AppendGap(dur)`; R75. -/
def appendGap (dur : Word32) (s : State) : Effect := appendAll [gapRecord dur] s

/-- `AppendLogicalBit(enc)`; R76. -/
def appendLogicalBit (enc : BitEncoding) (s : State) : Effect :=
  if enc.burstFirst then
    (appendCarrier enc.burstDuration s).andThen (appendGap (durationField enc.gapDuration))
  else
    (appendGap (durationField enc.gapDuration) s).andThen (appendCarrier enc.burstDuration)

/-- `ExecAppendBit(b)`; R77. -/
def appendBit (b : Bool) (s : State) : Effect := appendLogicalBit (bitEncoding s.params.profile b) s

/-- The ENCODER's commands in order; one it may not issue raises `IllegalCmd` and ends the payload; R87, R88. -/
def runPayload : List (Except Word8 Bool) → State → Effect
  | [], s => .done s
  | .ok b :: rest, s => (appendBit b s).andThen (runPayload rest)
  | .error op :: _, s => .raised { cause := .illegalCmd, info := op.setWidth 32 } s

/-- `ExecPayload()`; R88. -/
def appendPayload (s : State) : Effect := runPayload (encoderCommands s.params.encoder s.code) s

/-! ## Driver calls and reset -/

/-- Record one driver call or wait; R33. -/
def State.log (e : Event) (s : State) : State := { s with history := s.history ++ [e] }

/-- Release of the id an instance owns: at reset of a Built instance only; R96, R122. -/
def State.releaseWave (s : State) : State :=
  match s.wstate, s.waveId with
  | .built, some id => s.log (.release id)
  | _, _ => s

/-- The registers R120 clears, and the model's own fields for the command in progress. -/
def State.clearRegisters (codeIn : Word32) (s : State) : State :=
  { s with
    fault := 0#8
    finfo := none
    waveId := none
    timeline := []
    code := codeIn
    wstate := .unbuilt
    carrier := none
    response := none
    issuer := .host
    polling := false }

/-- The reset sequence: release, clear, derive the carrier; a validation fault leaves a Failed instance whose carrier
has no value and answers no command; R120, R121. -/
def State.resetWith (codeIn : Word32) (s : State) : State :=
  let s' := s.releaseWave.clearRegisters codeIn
  match deriveCarrier s.params.numerics s.params.profile with
  | .ok c => { s' with carrier := some c }
  | .error r => { s'.recordFault { cause := .validation, info := BitVec.ofNat 32 r } with wstate := .failed }

end Sys2Proof.Machine
end

