-- ==== Sys2Proof/Machine/Append.lean ====
section
/-! DEFINITION. The meanings of the three append operations, APPEND_CARRIER, APPEND_GAP and APPEND_BIT
(41_timeline_append.md). -/

namespace Sys2Proof.Machine

/-- APPEND_CARRIER `dur`; R74. -/
def execAppendCarrier (dur : Word32) (s : State) : Result :=
  issue (.appendCarrier dur) (fun s => (appendCarrier dur.toNat s).finish s.inBuild) s

/-- APPEND_GAP `dur`; R75. -/
def execAppendGap (dur : Word32) (s : State) : Result :=
  issue (.appendGap dur) (fun s => (appendGap dur s).finish s.inBuild) s

/-- APPEND_BIT `b`; R77. -/
def execAppendBit (b : Bool) (s : State) : Result :=
  issue (.appendBit b) (fun s => (appendBit b s).finish s.inBuild) s

end Sys2Proof.Machine
end

