-- ==== Sys2Proof/Machine/Build.lean ====
section
/-! DEFINITION. The meanings of PAYLOAD (43_encoder_payload.md) and BUILD (42_build.md). -/

namespace Sys2Proof.Machine

/-- PAYLOAD; R88. -/
def execPayload (s : State) : Result :=
  issue .payload (fun s => (appendPayload s).finish s.inBuild) s

/-- The trailing pulse, when the profile has one; R80, R81. -/
def appendTrailing (s : State) : Effect :=
  match s.params.profile.trailingPulse with
  | some d => appendCarrier d s
  | none => .done s

/-- The assembly of the timeline in its fixed order; R81. -/
def assemble (s : State) : Effect :=
  (((appendCarrier s.params.profile.leadingPulse s).andThen
    (appendGap (durationField s.params.profile.leadingGap))).andThen
      appendPayload).andThen appendTrailing

/-- The submission: the whole timeline goes to `DrvWaveCreate` once; on an id that is not negative the waveform is Built
and the answer is `OK`, and a negative id is a construction failure, raised inside BUILD; R82. -/
def submit (s : State) : State :=
  let (id, d) := s.driver.takeCreate
  let s' := { s with driver := d }.log (.waveCreate (memRead 0 s.tlLen s.timeline) id)
  if id.toInt < 0 then s'.raise true { cause := .hwConstruct, info := id }
  else { s' with waveId := some id, wstate := .built }.respondOk

/-- BUILD: one shot (R83), with the driver's initialisation as its premise (R124), then assembly and submission; a
fault in either leaves the waveform Failed (R84). R80. -/
def execBuild (s : State) : Result :=
  issue .build (fun s =>
    if s.wstate ≠ .unbuilt then .next (s.raise false { cause := .lifecycle, info := wstateCode s.wstate })
    else if s.driver.ready = false then .refused .driverNotReady
    else (assemble s).finishWith true submit) s

end Sys2Proof.Machine
end

