-- ==== Sys2Proof/Machine/Transmit.lean ====
section
/-! DEFINITION. The meaning of SEND and its poll loop (44_transmit.md). SEND is the one operation that blocks: the
request is one step, and each busy query of the loop is one step, so that a driver that is busy for ever gives the
infinite run R95 asks for. -/

namespace Sys2Proof.Machine

/-- SEND: the request. When the driver accepts it the command is in progress and has no response yet; R93. -/
def execSend (s : State) : Result :=
  issue .send (fun s =>
    if s.wstate ≠ .built then .next (s.raise false { cause := .notBuilt, info := wstateCode s.wstate })
    else
      match s.waveId with
      | none => .refused .waveIdNoValue
      | some id =>
        let (st, d) := s.driver.takeSend
        let s' := { s with driver := d }.log (.waveSend id .oneShot st)
        .next
          (if st = .ok then { s' with polling := true, response := none }
          else s'.raise false { cause := .transmission, info := sendStatusCode st })) s

/-- One turn of the poll loop: a query, then a wait, the end of the command, or `Transmission(3)`; R93, R94, R116. -/
def pollOnce (s : State) : State :=
  let (q, d) := s.driver.takePoll
  let s' := { s with driver := d }.log (.busyQuery q)
  match q with
  | .busy => s'.log (.wait s.params.pollInterval)
  | .idle => { s' with polling := false }.respondOk
  | .hwFault => { s' with polling := false }.raise false { cause := .transmission, info := 3#32 }

end Sys2Proof.Machine
end

