-- ==== Sys2Proof/Machine/Dispatch.lean ====
section
/-! DEFINITION. One arm per operation, each one call of its meaning. -/

namespace Sys2Proof.Machine

def exec (i : Instr) (s : State) : Host.Outcome State Fault Refusal :=
  match i with
  | .appendCarrier dur => Sys2Proof.Machine.execAppendCarrier dur s
  | .appendGap dur => Sys2Proof.Machine.execAppendGap dur s
  | .appendBit b => Sys2Proof.Machine.execAppendBit b s
  | .payload => Sys2Proof.Machine.execPayload s
  | .build => Sys2Proof.Machine.execBuild s
  | .send => Sys2Proof.Machine.execSend s

end Sys2Proof.Machine
end

