-- ==== Sys2Proof/Machine/Port.lean ====
section
/-! DEFINITION. Taking one input: a command word on the port is decoded and run (R62, R105), and the HOST's other
actions are a reset (R120) and the two primitives of the driver's initialisation (R113). -/

namespace Sys2Proof.Machine

/-- Decode a command word and run it; a word that spells no operation raises `IllegalCmd`; R58, R59, R62. -/
def runWord (w : CommandWord) (s : State) : Result :=
  match decode w with
  | .ok i => exec i s
  | .error e => .next (s.raiseIllegal e.opcode)

/-- Take one input; R113, R120, R127. -/
def takeInput (x : Input) (s : State) : Result :=
  match x with
  | .configPin => .next ({ s with driver := { s.driver with pinConfigured := true } }.log (.configPin s.params.txPin))
  | .clearBuffer => .next ({ s with driver := { s.driver with bufferCleared := true } }.log .clearBuffer)
  | .reset codeIn => .next (s.resetWith codeIn)
  | .command issuer w => runWord w { s with issuer := issuer }

/-- The block between steps: in the poll loop of a SEND it queries the driver; otherwise it takes the next input, and
waits as it is when there is none; R94, R127, R134. -/
def advance (s : State) : Result :=
  if s.polling then .next (pollOnce s)
  else
    match s.inputs with
    | [] => .next s
    | x :: rest => takeInput x { s with inputs := rest }

/-- The agent that may issue the operation a word names, HOST for a reserved one; R108. -/
def portIssuer (w : CommandWord) : Issuer :=
  match (opField w).toNat with
  | 1 => .builder
  | 2 => .builder
  | 3 => .encoder
  | 4 => .builder
  | _ => .host

/-- The state with a command word, issued by the agent that may issue it, as the very next thing the block takes. -/
def placeCommand (w : CommandWord) (s : State) : State :=
  { s with polling := false, inputs := .command (portIssuer w) w :: s.inputs }

end Sys2Proof.Machine
end

