-- ==== Sys2Proof/Machine/Signal.lean ====
section
/-! DEFINITION. What a timeline means as a signal, the driver taken as faithful (R41, D30). All times are natural
numbers of microseconds after the driver starts emission. -/

namespace Sys2Proof.Machine

/-- The time a timeline takes: the sum of its delays; R41. -/
def totalTime (m : Memory) : Nat := (m.map (fun p => p.delay.toNat)).sum

/-- `T(i)`, the time at which record `i` takes effect: the sum of the delays before it; R41. -/
def startTime (m : Memory) (i : Nat) : Nat := totalTime (m.take i)

/-- The level of a pin once a record takes effect, from the level before it. A record with a pin in both masks has no
meaning (U9). -/
def Pulse.apply (p : Pulse) (pin : Fin 32) (level : Bool) : Option Bool :=
  if p.set &&& p.clr ≠ 0#32 then none
  else if p.set.getLsbD pin then some true
  else if p.clr.getLsbD pin then some false
  else some level

/-- The level of a pin at time `t` while a timeline is emitted, `level` being its level before record 0. Each record's
level is held for its delay. There is no answer after the last record's delay has ended (U14), nor past a record that
has no meaning. -/
def signalAt (pin : Fin 32) (level : Bool) (m : Memory) (t : Nat) : Option Bool :=
  match m with
  | [] => none
  | p :: rest =>
    match p.apply pin level with
    | none => none
    | some l => if t < p.delay.toNat then some l else signalAt pin l rest (t - p.delay.toNat)

end Sys2Proof.Machine
end

