-- ==== Sys2Proof/Machine/Status.lean ====
section
/-! DEFINITION. The status registers as the HOST reads them between commands, by name (R31, R108, R127). A read has no
side effect; a register that holds no value gives none (U8). -/

namespace Sys2Proof.Machine

/-- The registers of R31. -/
inductive StatusReg where
  | code
  | cyclePeriod
  | onDuration
  | offDuration
  | tlLen
  | wstate
  | waveId
  | fault
  | finfo
deriving DecidableEq, Repr

/-- The value of a register: unsigned, but for the waveform id and the information word, which are signed; R31. The
waveform id is read only while Built (R127), and the information word only once a fault is recorded. -/
def readStatus (r : StatusReg) (s : State) : Option Int :=
  match r with
  | .code => some s.code.toNat
  | .cyclePeriod => s.carrier.map (fun c => (c.cyclePeriod.toNat : Int))
  | .onDuration => s.carrier.map (fun c => (c.onDuration.toNat : Int))
  | .offDuration => s.carrier.map (fun c => (c.offDuration.toNat : Int))
  | .tlLen => some s.tlLen
  | .wstate => some (wstateCode s.wstate).toNat
  | .waveId => if s.wstate = .built then s.waveId.map BitVec.toInt else none
  | .fault => some s.fault.toNat
  | .finfo => if s.fault = 0#8 then none else s.finfo.map BitVec.toInt

end Sys2Proof.Machine
end

