-- ==== Sys2Proof/Safety.lean ====
section
/-! DEFINITION. The terms claims use: the invariant of the machine, when a step takes a reset, when a run is over
(R134), and the records an operation or a whole BUILD asks for, said without the append operations. -/

namespace Sys2Proof.Machine

/-- What holds of the block in every state of a run. -/
structure Inv (s : State) : Prop where
  /-- The instance's arithmetic is admissible; R70. -/
  paramsOk : s.params.wellFormed = true
  /-- The timeline fits its capacity and no record has a pin in both masks; R23, R37. -/
  memoryOk : Memory.wf s.params.tlCap s.timeline = true
  /-- The carrier is what the profile gives, and has no value where the derivation fails; R22, R65, R121. -/
  carrierDerived : s.carrier = (deriveCarrier s.params.numerics s.params.profile).toOption
  /-- An instance without a carrier can never build; R121. -/
  carrierMissing : s.carrier = none → s.wstate = .failed
  /-- The waveform id has a value exactly while Built; R25. -/
  waveIdIff : s.waveId.isSome = true ↔ s.wstate = .built
  /-- The waveform id is not negative; R25, R31. -/
  waveIdNonneg : ∀ id, s.waveId = some id → 0 ≤ id.toInt
  /-- The timeline of a Built instance is the one that was handed to the driver, and is not empty; R39, R81. -/
  handedOff : ∀ id, s.waveId = some id → Event.waveCreate s.timeline id ∈ s.history ∧ s.timeline ≠ []
  /-- Bit 0 of `fault` is always 0; R26. -/
  faultBitZero : s.fault.getLsbD 0 = false
  /-- `finfo` has a value exactly when a fault has been recorded; R27. -/
  finfoIff : s.finfo = none ↔ s.fault = 0#8
  /-- A failed instance has recorded a fault; R24. -/
  failedFault : s.wstate = .failed → s.fault ≠ 0#8
  /-- Only a Built instance is in the poll loop, for the HOST, and its SEND has no response yet; R93. -/
  pollingBuilt : s.polling = true → s.wstate = .built ∧ s.issuer = .host ∧ s.response = none

/-- Whether the next step takes a reset. -/
def takesReset (s : State) : Bool :=
  !s.polling &&
    match s.inputs with
    | .reset _ :: _ => true
    | _ => false

/-- A run of one instance is over: nothing more to take, and no command in progress; R134. -/
def State.runOver (s : State) : Bool := !s.polling && s.inputs.isEmpty

/-- A run that is over and recorded no fault: a good end; R106, R134. -/
def State.goodEnd (s : State) : Bool := s.runOver && s.fault == 0#8

/-- Whether an input is one a HOST may send: its own actions, and command words it issues itself; R108, R127. -/
def Input.fromHost : Input → Bool
  | .command a _ => a == .host
  | _ => true

/-- Whether `n` records fit a capacity; R7. -/
def fitsCap (cap : Option Nat) (n : Nat) : Prop :=
  match cap with
  | none => True
  | some c => n ≤ c

/-- The records of a burst of `n` cycles, by index: assert at even places, clear at odd ones; R74. -/
def cycleRecords (pin : Fin 32) (c : Carrier) (n : Nat) : List Pulse :=
  (List.range (2 * n)).map (fun k =>
    if k % 2 = 0 then ⟨1#32 <<< pin.val, 0#32, c.onDuration⟩ else ⟨0#32, 1#32 <<< pin.val, c.offDuration⟩)

/-- The records of a burst of a Duration: as many whole cycles as it holds; R72, R74. -/
def burstOf (p : Params) (c : Carrier) (d : Nat) : List Pulse :=
  cycleRecords p.txPin c (d / c.cyclePeriod.toNat)

/-- The records of one logical bit, in the order its encoding gives; R76, R77. -/
def bitRecords (p : Params) (c : Carrier) (b : Bool) : List Pulse :=
  let e := if b then p.profile.logicalOne else p.profile.logicalZero
  let gap : List Pulse := [⟨0#32, 0#32, BitVec.ofNat 32 e.gapDuration⟩]
  if e.burstFirst then burstOf p c e.burstDuration ++ gap else gap ++ burstOf p c e.burstDuration

/-- The records that come before the trailing pulse: leading pulse, leading gap, the bits; R81. -/
def openingRecords (p : Params) (c : Carrier) (bits : List Bool) : List Pulse :=
  burstOf p c p.profile.leadingPulse ++ [⟨0#32, 0#32, BitVec.ofNat 32 p.profile.leadingGap⟩] ++
    bits.flatMap (bitRecords p c)

/-- The records of the trailing pulse, when the profile has one; R81. -/
def trailingRecords (p : Params) (c : Carrier) : List Pulse :=
  match p.profile.trailingPulse with
  | some d => burstOf p c d
  | none => []

/-- The records of a whole BUILD: the opening, then the trailing pulse; R81. -/
def frameRecords (p : Params) (c : Carrier) (bits : List Bool) : List Pulse :=
  openingRecords p c bits ++ trailingRecords p c

end Sys2Proof.Machine
end

