-- ==== Sys2Proof/Certificates/Slice0/Obligations.lean ====
section
/-! DEFINITION. The statements about the machine, each with the rule of spec/ it comes from. -/

open Sys2Proof Sys2Proof.Machine

/-! ## Encoding -/

/-- Command words written out from R53 and R54 (those of table V7 and of V3 to V5) decode to the operations they spell;
reserved words are refused by name. -/
def Obligations.SampleWordsDecode : Prop :=
  decode 0x0100002328#40 = .ok (.appendCarrier 9000#32) ∧
  decode 0x02FFFFFFFF#40 = .ok (.appendGap 4294967295#32) ∧
  decode 0x0300000001#40 = .ok (.appendBit true) ∧
  decode 0x0300000000#40 = .ok (.appendBit false) ∧
  decode 0x0400000000#40 = .ok .payload ∧
  decode 0x0500000000#40 = .ok .build ∧
  decode 0x0600000000#40 = .ok .send ∧
  decode 0x0000000000#40 = .error (.reservedOp 0#8) ∧
  decode 0x0700000000#40 = .error (.reservedOp 7#8) ∧
  decode 0x0380000001#40 = .error (.reservedArg 3#8) ∧
  decode 0x0580000000#40 = .error (.reservedArg 5#8)

/-- Decoding and encoding are inverse, in both directions: a word decodes to an instruction exactly when it is that
instruction's word. From R62: no operand bit is dropped, and no two words mean one command. -/
def Obligations.DecodeEncodeInverse : Prop :=
  ∀ (w : CommandWord) (i : Instr), decode w = .ok i ↔ w = encode i

/-- The decoder is the match and mask table of R62: each operation by its row, with its operand, and any other word is
illegal with its own `op`. -/
def Obligations.DecoderMatchesOpcodeTable : Prop :=
  ∀ w : CommandWord,
    (∀ d, decode w = .ok (.appendCarrier d) ↔ w &&& 0xFF00000000#40 = 0x0100000000#40 ∧ d = w.extractLsb' 0 32) ∧
    (∀ d, decode w = .ok (.appendGap d) ↔ w &&& 0xFF00000000#40 = 0x0200000000#40 ∧ d = w.extractLsb' 0 32) ∧
    (∀ b, decode w = .ok (.appendBit b) ↔ w &&& 0xFFFFFFFFFE#40 = 0x0300000000#40 ∧ b = w.getLsbD 0) ∧
    (decode w = .ok .payload ↔ w &&& 0xFFFFFFFFFF#40 = 0x0400000000#40) ∧
    (decode w = .ok .build ↔ w &&& 0xFFFFFFFFFF#40 = 0x0500000000#40) ∧
    (decode w = .ok .send ↔ w &&& 0xFFFFFFFFFF#40 = 0x0600000000#40) ∧
    (wordWellFormed w = false ↔ ∃ e, decode w = .error e ∧ e.opcode = w.extractLsb' 32 8)

/-- No word is taken by two rows of the opcode table; R61, R62. -/
def Obligations.OpcodeRowsDisjoint : Prop :=
  ∀ (w : CommandWord) (r₁ r₂ : OpcodeRow), r₁ ∈ opcodeTable → r₂ ∈ opcodeTable →
    r₁.takes w = true → r₂.takes w = true → r₁ = r₂

/-- R58 and R59: a word with a reserved `op`, or with a legal one and a reserved argument bit that is not zero, raises
`IllegalCmd(op)` and does nothing else, whoever issues it. (From the BUILDER or the ENCODER it is raised inside BUILD,
and R103 (4) makes the waveform Failed: log 6.) -/
def Obligations.IllegalWordAnswered : Prop :=
  ∀ (s : State) (a : Issuer) (w : CommandWord) (rest : List Input),
    s.polling = false → s.inputs = .command a w :: rest →
    (w.extractLsb' 32 8 = 0#8 ∨ 7 ≤ (w.extractLsb' 32 8).toNat ∨
      (w.extractLsb' 32 8 = 3#8 ∧ w.extractLsb' 1 31 ≠ 0#31) ∨
      ((w.extractLsb' 32 8 = 4#8 ∨ w.extractLsb' 32 8 = 5#8 ∨ w.extractLsb' 32 8 = 6#8) ∧
        w.extractLsb' 0 32 ≠ 0#32)) →
    step s = .next
      { s with
        inputs := rest
        issuer := a
        fault := s.fault ||| 0x20#8
        finfo := some ((w.extractLsb' 32 8).setWidth 32)
        response := some 5#8
        wstate := if a ≠ .host ∧ s.wstate = .unbuilt then .failed else s.wstate }

/-- R64: the expansions of the pseudo-instructions, and the NEC-extended payload as four APPEND_BYTEs. -/
def Obligations.PseudoExpansions : Prop :=
  Pseudo.appendOne.expand = [.appendBit true] ∧ Pseudo.appendZero.expand = [.appendBit false] ∧
  (∀ v : Word8, (Pseudo.appendByte v).expand =
    [.appendBit (v.getLsbD 0), .appendBit (v.getLsbD 1), .appendBit (v.getLsbD 2), .appendBit (v.getLsbD 3),
      .appendBit (v.getLsbD 4), .appendBit (v.getLsbD 5), .appendBit (v.getLsbD 6), .appendBit (v.getLsbD 7)]) ∧
  (∀ code : Word32, (necBits code).map Instr.appendBit =
    (Pseudo.appendByte (code.extractLsb' 16 8)).expand ++ (Pseudo.appendByte (code.extractLsb' 8 8)).expand ++
      (Pseudo.appendByte (code.extractLsb' 0 8)).expand ++ (Pseudo.appendByte (~~~(code.extractLsb' 0 8))).expand)

/-! ## The step -/

/-- A step runs the decoded instruction: with no SEND in progress and a command word next, the step is `exec` of the
instruction it decodes to, at the state with the word taken and its issuer named; R49 (c), R53, R62. -/
def Obligations.StepRunsDecodedInstr : Prop :=
  ∀ (s : State) (a : Issuer) (w : CommandWord) (rest : List Input) (i : Instr),
    s.polling = false → s.inputs = .command a w :: rest → decode w = .ok i →
    step s = exec i { s with inputs := rest, issuer := a }

/-- A run that is over stays as it is: the model's form of R134's end of a run (log 7). -/
def Obligations.RunOverWaits : Prop :=
  ∀ s : State, s.runOver = true → step s = .next s

/-- R108: a command from an agent that may not issue it raises `IllegalCmd(op)` and does nothing else; that a command of
the BUILDER or the ENCODER on an Unbuilt instance is inside BUILD, so that R103 (4) holds, is the model's reading
(log 6). -/
def Obligations.UnpermittedCommandRefused : Prop :=
  ∀ (i : Instr) (s : State),
    (match i with
      | .appendCarrier _ => s.issuer ≠ .builder
      | .appendGap _ => s.issuer ≠ .builder
      | .appendBit _ => s.issuer ≠ .encoder
      | .payload => s.issuer ≠ .builder
      | .build => s.issuer ≠ .host
      | .send => s.issuer ≠ .host) →
    exec i s = .next
      { s with
        fault := s.fault ||| 0x20#8
        finfo := some
          (match i with
            | .appendCarrier _ => 1#32
            | .appendGap _ => 2#32
            | .appendBit _ => 3#32
            | .payload => 4#32
            | .build => 5#32
            | .send => 6#32)
        response := some 5#8
        wstate := if s.issuer ≠ .host ∧ s.wstate = .unbuilt then .failed else s.wstate }

/-- A command that answers a next state is answered `OK` with no fault recorded, or a fault is recorded with its own
cause code and information word, as R98 and R103 (2), (3), (5) have them; only a SEND whose request was accepted has no
response yet: it is in its poll loop, which is the model's choice (log 3). The causes are those of R98's table: lifecycle,
construction, transmission, illegal command (by its issuer, or the encoder's first forbidden command), not built,
overflow. A command the model stops answers nothing and is not spoken of here. -/
def Obligations.CommandAnsweredOrPolling : Prop :=
  ∀ (i : Instr) (s t : State), exec i s = .next t →
    (t.response = some 0#8 ∧ t.fault = s.fault ∧ t.finfo = s.finfo) ∨
    (∃ (k : Nat) (info : Word32), t.response = some (BitVec.ofNat 8 k) ∧ t.fault = s.fault ||| (1#8 <<< k) ∧
      t.finfo = some info ∧
      ((k = 2 ∧ i = .build ∧ s.wstate ≠ .unbuilt ∧ info = if s.wstate = .built then 1#32 else 2#32) ∨
        (k = 3 ∧ i = .build ∧ info = s.driver.takeCreate.1 ∧ info.toInt < 0) ∨
        (k = 4 ∧ i = .send ∧
          ((s.driver.takeSend.1 = .badId ∧ info = 1#32) ∨ (s.driver.takeSend.1 = .badMode ∧ info = 2#32))) ∨
        (k = 5 ∧
          ((mayIssue i s.issuer = false ∧ info = i.opcode.setWidth 32) ∨
            ((i = .payload ∨ i = .build) ∧ ∃ (bits : List Bool) (op : Word8) (later : List (Except Word8 Bool)),
              encoderCommands s.params.encoder s.code = bits.map .ok ++ .error op :: later ∧
              info = op.setWidth 32))) ∨
        (k = 6 ∧ i = .send ∧ s.wstate ≠ .built ∧ info = if s.wstate = .unbuilt then 0#32 else 2#32) ∨
        (k = 7 ∧ i ≠ .send ∧ s.params.tlCap ≠ none ∧ info = 0#32))) ∨
    (i = .send ∧ t.polling = true ∧ t.response = none ∧ t.fault = s.fault ∧ t.finfo = s.finfo)

/-- The cause codes of R98 and the lifecycle encoding of R24. -/
def Obligations.CauseCodesOfTable : Prop :=
  [Cause.validation, .lifecycle, .hwConstruct, .transmission, .illegalCmd, .notBuilt, .tlOverflow].map causeCode
      = [1, 2, 3, 4, 5, 6, 7] ∧
    [Cause.validation, .lifecycle, .hwConstruct, .transmission, .illegalCmd, .notBuilt, .tlOverflow].map faultBit
      = [0x02#8, 0x04#8, 0x08#8, 0x10#8, 0x20#8, 0x40#8, 0x80#8] ∧
    [WState.unbuilt, .built, .failed].map wstateCode = [0#32, 1#32, 2#32]

/-! ## Reset and the carrier -/

/-- R120, R122: a reset first releases the id of a Built instance, exactly once, then sets every register of the block
and derives the carrier: with one it is Unbuilt, without one it has recorded `Validation` and is Failed. -/
def Obligations.ResetSequence : Prop :=
  ∀ (s : State) (x : Word32) (rest : List Input), s.polling = false → s.inputs = .reset x :: rest →
    ∃ t, step s = .next t ∧ t.waveId = none ∧ t.timeline = [] ∧ t.tlLen = 0 ∧ t.code = x ∧ t.params = s.params ∧
      t.driver = s.driver ∧ t.inputs = rest ∧
      t.history = s.history ++ (if s.wstate = .built then s.waveId.toList.map Event.release else []) ∧
      match deriveCarrier s.params.numerics s.params.profile with
      | .ok c => t.fault = 0#8 ∧ t.finfo = none ∧ t.wstate = .unbuilt ∧ t.carrier = some c
      | .error r =>
        t.fault = 0x02#8 ∧ t.finfo = some (BitVec.ofNat 32 r) ∧ t.wstate = .failed ∧ t.carrier = none

/-- R121: a reset whose derivation raises `Validation(r)` leaves a Failed instance with fault bit 1, `finfo = r`, no
carrier, and everything else as R120 sets it; BUILD then answers `Lifecycle` and SEND `NotBuilt`, and the instance stays
Failed. `NEC_PROFILE` never raises it. -/
def Obligations.ResetValidationFault : Prop :=
  (∀ (s : State) (x : Word32) (rest : List Input) (r : Nat),
    s.polling = false → s.inputs = .reset x :: rest →
    deriveCarrier s.params.numerics s.params.profile = .error r →
    ∃ t, step s = .next t ∧ t.fault = 0x02#8 ∧ t.finfo = some (BitVec.ofNat 32 r) ∧ t.wstate = .failed ∧
      t.carrier = none ∧ t.waveId = none ∧ t.timeline = [] ∧ t.code = x ∧ t.params = s.params ∧
      t.history = s.history ++ (if s.wstate = .built then s.waveId.toList.map Event.release else []) ∧
      (∃ u, exec .build { t with issuer := .host } = .next u ∧ u.response = some 2#8 ∧ u.wstate = .failed) ∧
      (∃ u, exec .send { t with issuer := .host } = .next u ∧ u.response = some 6#8 ∧ u.wstate = .failed)) ∧
  (deriveCarrier .exact necProfile).toOption.isSome = true

/-- What R34 and R71 give the machine after reset. (`code_in`, `TX_PIN` and the driver's initialisation are the
model's choices, log 1, 10 and 14, and are not stated here.) -/
def Obligations.ResetStateValues : Prop :=
  State.reset.timeline = [] ∧ State.reset.tlLen = 0 ∧ State.reset.wstate = .unbuilt ∧ State.reset.waveId = none ∧
    State.reset.fault = 0#8 ∧ State.reset.finfo = none ∧
    State.reset.carrier = some { cyclePeriod := 26#32, onDuration := 13#32, offDuration := 13#32 } ∧
    State.reset.params.profile = necProfile ∧ State.reset.params.encoder = .necExtended

/-- R71: the derivation of `NEC_PROFILE` gives 26, 13, 13 under every admissible arithmetic; what is admissible is the
model's reading of R70 (log 22). -/
def Obligations.NecCarrierTiming : Prop :=
  ∀ n : Numerics, n.admissible necProfile = true →
    deriveCarrier n necProfile = .ok { cyclePeriod := 26#32, onDuration := 13#32, offDuration := 13#32 }

/-- R66, R69, R70: under every admissible arithmetic, the checks of the derivation in the source's order (D16, D6), the
first that fails giving its sub-reason, and the off duration by subtraction. In exact arithmetic, this spec's own choice,
the period is one million over the frequency, rounded with ties away from zero (D4), and the on duration the already
rounded period (D5) times the duty cycle, rounded so. What is admissible is the model's reading of R70 (log 22). -/
def Obligations.CarrierChecksInOrder : Prop :=
  ∀ (n : Numerics) (p : Profile), n.admissible p = true →
    let period : Int := match n with
      | .exact => (1000000 / p.frequencyHz + 1 / 2).floor
      | .given _ given _ => given
    let on : Int := match n with
      | .exact => ((period : Rat) * p.dutyCycle + 1 / 2).floor
      | .given _ _ given => given
    let wide := 2 ^ 32 ≤ period ∨ 2 ^ 32 ≤ p.leadingPulse ∨ 2 ^ 32 ≤ p.leadingGap ∨
      2 ^ 32 ≤ p.logicalOne.burstDuration ∨ 2 ^ 32 ≤ p.logicalOne.gapDuration ∨
      2 ^ 32 ≤ p.logicalZero.burstDuration ∨ 2 ^ 32 ≤ p.logicalZero.gapDuration ∨
      (∃ d, p.trailingPulse = some d ∧ 2 ^ 32 ≤ d)
    (p.frequencyHz ≤ 0 → deriveCarrier n p = .error 1) ∧
    (0 < p.frequencyHz → (p.dutyCycle ≤ 0 ∨ 1 ≤ p.dutyCycle) → deriveCarrier n p = .error 2) ∧
    (0 < p.frequencyHz → 0 < p.dutyCycle → p.dutyCycle < 1 →
      (period = 0 → deriveCarrier n p = .error 3) ∧
      (period ≠ 0 → wide → deriveCarrier n p = .error 4) ∧
      (period ≠ 0 → ¬ wide → ∃ c, deriveCarrier n p = .ok c ∧ (c.cyclePeriod.toNat : Int) = period ∧
        (c.onDuration.toNat : Int) = on ∧ (c.offDuration.toNat : Int) = period - on))

/-- R67, R68 in exact arithmetic: of a profile that constructs, the period is the natural number nearest to one million
over the frequency and the on duration the one nearest to the already rounded period (decision D5) times the duty cycle,
a tie going up (decision D4), and on and off add up to the period exactly. -/
def Obligations.CarrierTimingNearest : Prop :=
  ∀ (p : Profile) (c : Carrier), deriveCarrier .exact p = .ok c →
    0 < c.cyclePeriod.toNat ∧
    (c.cyclePeriod.toNat : Rat) - 1 / 2 ≤ 1000000 / p.frequencyHz ∧
    1000000 / p.frequencyHz < (c.cyclePeriod.toNat : Rat) + 1 / 2 ∧
    (c.onDuration.toNat : Rat) - 1 / 2 ≤ (c.cyclePeriod.toNat : Rat) * p.dutyCycle ∧
    (c.cyclePeriod.toNat : Rat) * p.dutyCycle < (c.onDuration.toNat : Rat) + 1 / 2 ∧
    c.onDuration.toNat + c.offDuration.toNat = c.cyclePeriod.toNat

/-- The invariant of R22 under every admissible arithmetic (R70): on and off add up to the period, which is at least 1.
In exact arithmetic, and where the arithmetic's own float holds the frequency, or the duty cycle, exactly, the period, or
the on duration, is a nearest natural number; where it does not, it is one up to the error of the float. What is
admissible, and the bound on that error, are the model's reading of R70 (log 22). -/
def Obligations.CarrierSumEveryNumerics : Prop :=
  ∀ (n : Numerics) (p : Profile) (c : Carrier), n.admissible p = true → deriveCarrier n p = .ok c →
    let quotient := 1000000 / p.frequencyHz
    let product := (c.cyclePeriod.toNat : Rat) * p.dutyCycle
    let held := fun x : Rat => match n with
      | .exact => True
      | .given precision _ _ => floatHolds precision x = true
    1 ≤ c.cyclePeriod.toNat ∧ c.onDuration.toNat + c.offDuration.toNat = c.cyclePeriod.toNat ∧
    (held p.frequencyHz →
      (c.cyclePeriod.toNat : Rat) - 1 / 2 ≤ quotient ∧ quotient ≤ (c.cyclePeriod.toNat : Rat) + 1 / 2) ∧
    (held p.dutyCycle →
      (c.onDuration.toNat : Rat) - 1 / 2 ≤ product ∧ product ≤ (c.onDuration.toNat : Rat) + 1 / 2) ∧
    (∀ precision period on, n = .given precision period on →
      (c.cyclePeriod.toNat : Rat) - (1 / 2 + 8 * quotient / 2 ^ precision) ≤ quotient ∧
      quotient ≤ (c.cyclePeriod.toNat : Rat) + (1 / 2 + 8 * quotient / 2 ^ precision) ∧
      (c.onDuration.toNat : Rat) - (1 / 2 + 8 * product / 2 ^ precision) ≤ product ∧
      product ≤ (c.onDuration.toNat : Rat) + (1 / 2 + 8 * product / 2 ^ precision))

/-- R72: the cycle count is the whole part of the quotient, for every natural Duration. -/
def Obligations.NumCyclesFloor : Prop :=
  ∀ (c : Carrier) (d : Nat), 1 ≤ c.cyclePeriod.toNat →
    numCycles c d * c.cyclePeriod.toNat ≤ d ∧ d < (numCycles c d + 1) * c.cyclePeriod.toNat ∧ numCycles c d ≤ d

/-! ## The append operations -/

/-- R74: APPEND_CARRIER, issued by the BUILDER, appends `n = dur div cycle_period` pairs of an assert and a clear
record at the end of the timeline, answers `OK`, and changes nothing else. -/
def Obligations.AppendCarrierCompletes : Prop :=
  ∀ (dur : Word32) (s : State) (c : Carrier),
    s.issuer = .builder → s.wstate = .unbuilt → s.carrier = some c →
    fitsCap s.params.tlCap (s.timeline.length + 2 * (dur.toNat / c.cyclePeriod.toNat)) →
    exec (.appendCarrier dur) s = .next
      { s with
        timeline := s.timeline ++
          (List.range (2 * (dur.toNat / c.cyclePeriod.toNat))).map (fun k =>
            if k % 2 = 0 then ⟨1#32 <<< s.params.txPin.val, 0#32, c.onDuration⟩
            else ⟨0#32, 1#32 <<< s.params.txPin.val, c.offDuration⟩)
        response := some 0#8 }

/-- R74, R130: a burst shorter than one cycle appends nothing and raises nothing, at every capacity; that it is answered
`OK` also on an instance that is Built or Failed, where R109 has no appends, is the model's reading (log 15). -/
def Obligations.ShortBurstDropped : Prop :=
  ∀ (dur : Word32) (s : State) (c : Carrier),
    s.issuer = .builder → s.carrier = some c → dur.toNat < c.cyclePeriod.toNat →
    exec (.appendCarrier dur) s = .next { s with response := some 0#8 }

/-- R75: APPEND_GAP, issued by the BUILDER, appends exactly one record that carries its Duration unrounded, also for a
Duration of 0, answers `OK`, and changes nothing else. -/
def Obligations.AppendGapCompletes : Prop :=
  ∀ (dur : Word32) (s : State),
    s.issuer = .builder → s.wstate = .unbuilt → fitsCap s.params.tlCap (s.timeline.length + 1) →
    exec (.appendGap dur) s = .next
      { s with timeline := s.timeline ++ [⟨0#32, 0#32, dur⟩], response := some 0#8 }

/-- R76, R77: APPEND_BIT, issued by the ENCODER, appends the burst and the gap of the profile's encoding of the bit, in
the order `burst_first` gives, answers `OK`, and changes nothing else. -/
def Obligations.AppendBitCompletes : Prop :=
  ∀ (b : Bool) (s : State) (c : Carrier),
    s.issuer = .encoder → s.wstate = .unbuilt → s.carrier = some c →
    fitsCap s.params.tlCap (s.timeline.length + (bitRecords s.params c b).length) →
    exec (.appendBit b) s = .next
      { s with timeline := s.timeline ++ bitRecords s.params c b, response := some 0#8 }

/-- R88: PAYLOAD, issued by the BUILDER, appends the records of the encoder's bits in list order, answers `OK`, and
changes nothing else; an empty list appends nothing. -/
def Obligations.PayloadCompletes : Prop :=
  ∀ (s : State) (c : Carrier) (bits : List Bool),
    s.issuer = .builder → s.wstate = .unbuilt → s.carrier = some c →
    encoderCommands s.params.encoder s.code = bits.map .ok →
    fitsCap s.params.tlCap (s.timeline.length + (bits.flatMap (bitRecords s.params c)).length) →
    exec .payload s = .next
      { s with timeline := s.timeline ++ bits.flatMap (bitRecords s.params c), response := some 0#8 }

/-- R73 and R103 (4): an append that does not fit a finite capacity writes the records that fit and no more, and raises
`TlOverflow(0)`; issued inside BUILD, as every append by its own agent is (log 6), it leaves the waveform Failed. Said of
each append operation and of PAYLOAD, whose bits up to any place of the encoder's commands may be what does not fit:
a later command of the encoder, forbidden or not, is then not issued (R88, R105 (4)). -/
def Obligations.AppendOverflowFaults : Prop :=
  ∀ (i : Instr) (ps : List Pulse) (s : State) (c : Carrier) (n : Nat),
    s.wstate = .unbuilt → s.carrier = some c →
    ((∃ d, i = .appendCarrier d ∧ s.issuer = .builder ∧ ps = burstOf s.params c d.toNat) ∨
      (∃ d, i = .appendGap d ∧ s.issuer = .builder ∧ ps = [⟨0#32, 0#32, d⟩]) ∨
      (∃ b, i = .appendBit b ∧ s.issuer = .encoder ∧ ps = bitRecords s.params c b) ∨
      (∃ (bits : List Bool) (rest : List (Except Word8 Bool)), i = .payload ∧ s.issuer = .builder ∧
        encoderCommands s.params.encoder s.code = bits.map .ok ++ rest ∧
        ps = bits.flatMap (bitRecords s.params c))) →
    s.params.tlCap = some n → s.timeline.length ≤ n → n < s.timeline.length + ps.length →
    exec i s = .next
      { s with
        timeline := s.timeline ++ ps.take (n - s.timeline.length)
        fault := s.fault ||| 0x80#8
        finfo := some 0#32
        wstate := .failed
        response := some 7#8 }

/-- An append that would write a timeline that is not Unbuilt stops the model: `MemWrite` is not defined there (R15,
R38, log 15). Said of each append operation and of PAYLOAD, where the first record it would write has room. -/
def Obligations.AppendAfterBuildStops : Prop :=
  ∀ s : State, s.wstate ≠ .unbuilt → fitsCap s.params.tlCap (s.timeline.length + 1) →
    (s.issuer = .builder → ∀ dur, exec (.appendGap dur) s = .fault .timelineReadOnly) ∧
    ∀ c, s.carrier = some c →
      (s.issuer = .builder → ∀ dur, c.cyclePeriod.toNat ≤ dur.toNat → 1 ≤ c.cyclePeriod.toNat →
        exec (.appendCarrier dur) s = .fault .timelineReadOnly) ∧
      (s.issuer = .encoder → ∀ b, exec (.appendBit b) s = .fault .timelineReadOnly) ∧
      (s.issuer = .builder → ∀ b rest, encoderCommands s.params.encoder s.code = .ok b :: rest →
        exec .payload s = .fault .timelineReadOnly)

/-- A burst of an instance whose carrier has no value stops the model (R121, U8, log 2): APPEND_CARRIER, BUILD with its
leading pulse, and APPEND_BIT and PAYLOAD where the bit's burst comes first or its gap can be written before it. -/
def Obligations.CarrierWithoutValueStops : Prop :=
  ∀ s : State, s.carrier = none →
    (s.issuer = .builder → ∀ dur, exec (.appendCarrier dur) s = .refused .carrierNoValue) ∧
    (s.issuer = .host → s.wstate = .unbuilt → s.driver.ready = true → exec .build s = .refused .carrierNoValue) ∧
    ∀ b : Bool,
      ((if b then s.params.profile.logicalOne else s.params.profile.logicalZero).burstFirst = true ∨
        (s.wstate = .unbuilt ∧ fitsCap s.params.tlCap (s.timeline.length + 1))) →
      (s.issuer = .encoder → exec (.appendBit b) s = .refused .carrierNoValue) ∧
      (s.issuer = .builder → ∀ rest, encoderCommands s.params.encoder s.code = .ok b :: rest →
        exec .payload s = .refused .carrierNoValue)

/-- R42: the 32 logical bits of the NEC-extended payload, in emission order. -/
def Obligations.NecBitsInEmissionOrder : Prop :=
  ∀ code : Word32,
    necBits code =
      (List.range 8).map (fun k => code.getLsbD (16 + k)) ++ (List.range 8).map (fun k => code.getLsbD (8 + k)) ++
        (List.range 8).map (fun k => code.getLsbD k) ++ (List.range 8).map (fun k => !code.getLsbD k)

/-- R91: the payload is 32 bits; bits 24 to 31 are the inverses of bits 16 to 23, so the last two groups hold eight ones;
under `NEC_PROFILE` every bit is a burst of 21 cycles, then its gap; codes that agree in bits 23 to 0 have one payload. -/
def Obligations.NecPayloadProperties : Prop :=
  (∀ code : Word32, (necBits code).length = 32 ∧
    (∀ j < 8, (necBits code)[24 + j]? = (necBits code)[16 + j]?.map (!·)) ∧
    ((necBits code).drop 16).count true = 8) ∧
  (∀ (pin : Fin 32) (b : Bool),
    bitRecords { defaultParams with txPin := pin } ⟨26#32, 13#32, 13#32⟩ b =
      cycleRecords pin ⟨26#32, 13#32, 13#32⟩ 21 ++ [⟨0#32, 0#32, if b then 1686#32 else 562#32⟩]) ∧
  (∀ c₁ c₂ : Word32, c₁.extractLsb' 0 24 = c₂.extractLsb' 0 24 → necBits c₁ = necBits c₂)

/-- R87: what an encoder's commands are. Of a plugged encoder's words for the code, in their order, an APPEND_BIT word
asks for its bit, and any other word, another operation's or an illegal one, is a command it may not issue, by the word's
own `op`; a code without a row supplies nothing; a conforming encoder so supplies exactly its bits. The NEC-extended
encoder's are the bits of R89. That a plugged encoder is a table, its first row for a code the one that counts and a code
without a row the empty list, is the model's form of the function R87 asks for (log 13). -/
def Obligations.EncoderCommandsOfWords : Prop :=
  (∀ (rows : List (Word32 × List CommandWord)) (code : Word32) (words : List CommandWord),
    rows.find? (fun r => r.1 = code) = some (code, words) →
    (encoderCommands (.plugged rows) code).length = words.length ∧
    (∀ (k : Nat) (w : CommandWord), words[k]? = some w →
      (∀ b, w = encode (.appendBit b) → (encoderCommands (.plugged rows) code)[k]? = some (.ok b)) ∧
      ((∀ b, w ≠ encode (.appendBit b)) →
        (encoderCommands (.plugged rows) code)[k]? = some (.error (w.extractLsb' 32 8)))) ∧
    (∀ bits : List Bool, words = bits.map (fun b => encode (.appendBit b)) →
      encoderCommands (.plugged rows) code = bits.map .ok)) ∧
  (∀ (rows : List (Word32 × List CommandWord)) (code : Word32),
    rows.find? (fun r => r.1 = code) = none → encoderCommands (.plugged rows) code = []) ∧
  (∀ code : Word32, encoderCommands .necExtended code = (necBits code).map .ok)

/-! ## BUILD -/

/-- R80, R81, R82: BUILD on an Unbuilt instance with the driver ready appends the leading pulse, the leading gap, the
bits and the trailing pulse if present, in that order, submits the whole timeline once, and on an id that is not
negative is Built with that id. Nothing else changes. -/
def Obligations.BuildCompletes : Prop :=
  ∀ (s : State) (c : Carrier) (bits : List Bool),
    s.issuer = .host → s.wstate = .unbuilt → s.driver.ready = true → s.carrier = some c →
    encoderCommands s.params.encoder s.code = bits.map .ok →
    fitsCap s.params.tlCap (s.timeline.length + (frameRecords s.params c bits).length) →
    0 ≤ s.driver.takeCreate.1.toInt →
    exec .build s = .next
      { s with
        timeline := s.timeline ++ frameRecords s.params c bits
        driver := s.driver.takeCreate.2
        history := s.history ++
          [.waveCreate (s.timeline ++ frameRecords s.params c bits) s.driver.takeCreate.1]
        waveId := some s.driver.takeCreate.1
        wstate := .built
        response := some 0#8 }

/-- R82, R101: the same BUILD on a negative id raises `HwConstruct(id)`: the waveform is Failed, `wave_id` is not
written, the records stay. -/
def Obligations.BuildDriverFailure : Prop :=
  ∀ (s : State) (c : Carrier) (bits : List Bool),
    s.issuer = .host → s.wstate = .unbuilt → s.driver.ready = true → s.carrier = some c →
    encoderCommands s.params.encoder s.code = bits.map .ok →
    fitsCap s.params.tlCap (s.timeline.length + (frameRecords s.params c bits).length) →
    s.driver.takeCreate.1.toInt < 0 →
    exec .build s = .next
      { s with
        timeline := s.timeline ++ frameRecords s.params c bits
        driver := s.driver.takeCreate.2
        history := s.history ++
          [.waveCreate (s.timeline ++ frameRecords s.params c bits) s.driver.takeCreate.1]
        fault := s.fault ||| 0x08#8
        finfo := some s.driver.takeCreate.1
        wstate := .failed
        response := some 3#8 }

/-- R84, R105 (4): an append fault inside BUILD ends it: the records that fit stay, the driver is not called, the
waveform is Failed. It is the whole frame of a conforming encoder that does not fit, or what comes before the trailing
pulse up to some bit of any encoder: a command it may not issue, coming later, is then not reached. -/
def Obligations.BuildOverflowFails : Prop :=
  ∀ (s : State) (c : Carrier) (bits : List Bool) (rest : List (Except Word8 Bool)) (records : List Pulse) (n : Nat),
    s.issuer = .host → s.wstate = .unbuilt → s.driver.ready = true → s.carrier = some c →
    encoderCommands s.params.encoder s.code = bits.map .ok ++ rest →
    (records = openingRecords s.params c bits ∨ (rest = [] ∧ records = frameRecords s.params c bits)) →
    s.params.tlCap = some n → s.timeline.length ≤ n → n < s.timeline.length + records.length →
    exec .build s = .next
      { s with
        timeline := (s.timeline ++ records).take n
        fault := s.fault ||| 0x80#8
        finfo := some 0#32
        wstate := .failed
        response := some 7#8 }

/-- R87: when a plugged encoder, after some bits that fit, issues a command it may not issue, that command raises
`IllegalCmd`: BUILD fails, nothing later is appended and the driver is not called. A PAYLOAD that the BUILDER issues alone
ends so too (R88); that it is inside BUILD, so that the waveform is Failed, is the model's reading (log 6). -/
def Obligations.BuildNonconformingEncoder : Prop :=
  ∀ (s : State) (c : Carrier) (bits : List Bool) (op : Word8) (later : List (Except Word8 Bool)),
    s.wstate = .unbuilt → s.carrier = some c →
    encoderCommands s.params.encoder s.code = bits.map .ok ++ .error op :: later →
    (s.issuer = .host → s.driver.ready = true →
      fitsCap s.params.tlCap (s.timeline.length + (openingRecords s.params c bits).length) →
      exec .build s = .next
        { s with
          timeline := s.timeline ++ openingRecords s.params c bits
          fault := s.fault ||| 0x20#8
          finfo := some (op.setWidth 32)
          wstate := .failed
          response := some 5#8 }) ∧
    (s.issuer = .builder →
      fitsCap s.params.tlCap (s.timeline.length + (bits.flatMap (bitRecords s.params c)).length) →
      exec .payload s = .next
        { s with
          timeline := s.timeline ++ bits.flatMap (bitRecords s.params c)
          fault := s.fault ||| 0x20#8
          finfo := some (op.setWidth 32)
          wstate := .failed
          response := some 5#8 })

/-- R83: BUILD on an instance that is not Unbuilt raises `Lifecycle(wstate)` and nothing else changes. -/
def Obligations.SecondBuildRefused : Prop :=
  ∀ s : State, s.issuer = .host → s.wstate ≠ .unbuilt →
    exec .build s = .next
      { s with
        fault := s.fault ||| 0x04#8
        finfo := some (if s.wstate = .built then 1#32 else 2#32)
        response := some 2#8 }

/-- BUILD without the driver's initialisation has no meaning (R124, U5). -/
def Obligations.BuildWithoutDriverRefused : Prop :=
  ∀ s : State, s.issuer = .host → s.wstate = .unbuilt → s.driver.ready = false →
    exec .build s = .refused .driverNotReady

/-- R65, R73, R79, R92: the timeline after BUILD is a function of the profile, the carrier it gave, the pin, the capacity,
the encoder and the code: two instances that agree in those, with empty timelines, have equal timelines after BUILD,
whatever their drivers answer and whatever else differs. (R92 itself names neither the capacity nor the carrier.) -/
def Obligations.BuildDeterministic : Prop :=
  ∀ s₁ s₂ t₁ t₂ : State,
    s₁.params.profile = s₂.params.profile → s₁.params.txPin = s₂.params.txPin →
    s₁.params.encoder = s₂.params.encoder → s₁.params.tlCap = s₂.params.tlCap →
    s₁.code = s₂.code → s₁.carrier = s₂.carrier →
    s₁.timeline = [] → s₂.timeline = [] → s₁.wstate = .unbuilt → s₂.wstate = .unbuilt →
    s₁.issuer = .host → s₂.issuer = .host →
    exec .build s₁ = .next t₁ → exec .build s₂ = .next t₂ → t₁.timeline = t₂.timeline

/-- R85: the totals of a NEC-extended BUILD on a fresh instance, for every code, every transmitter pin and every answer
of the driver. -/
def Obligations.NecBuildTotals : Prop :=
  ∀ (s : State) (pin : Fin 32),
    s.params = { defaultParams with txPin := pin } → s.carrier = some ⟨26#32, 13#32, 13#32⟩ → s.timeline = [] →
    s.wstate = .unbuilt → s.issuer = .host → s.driver.ready = true →
    ∃ t, exec .build s = .next t ∧ t.tlLen = 2111 ∧
      (∀ k < 692, t.timeline[k]? =
        some (if k % 2 = 0 then ⟨1#32 <<< pin.val, 0#32, 13#32⟩ else ⟨0#32, 1#32 <<< pin.val, 13#32⟩)) ∧
      t.timeline[692]? = some ⟨0#32, 0#32, 4500#32⟩ ∧
      (∀ j < 32,
        (∀ k < 42, t.timeline[693 + 43 * j + k]? =
          some (if k % 2 = 0 then ⟨1#32 <<< pin.val, 0#32, 13#32⟩ else ⟨0#32, 1#32 <<< pin.val, 13#32⟩)) ∧
        t.timeline[693 + 43 * j + 42]? =
          (necBits s.code)[j]?.map (fun b => ⟨0#32, 0#32, if b then 1686#32 else 562#32⟩)) ∧
      (∀ k < 42, t.timeline[2069 + k]? =
        some (if k % 2 = 0 then ⟨1#32 <<< pin.val, 0#32, 13#32⟩ else ⟨0#32, 1#32 <<< pin.val, 13#32⟩)) ∧
      totalTime t.timeline = 8996 + 4500 + 32 * 546 + 1686 * (necBits s.code).count true +
        562 * (32 - (necBits s.code).count true) + 546 ∧
      (necBits s.code).count true =
        ((List.range 16).map (fun k => s.code.getLsbD (8 + k))).count true + 8 ∧
      8 ≤ (necBits s.code).count true ∧ (necBits s.code).count true ≤ 24 ∧
      (s.code = 0x00081387#32 → (necBits s.code).count true = 12 ∧ totalTime t.timeline = 62986)

/-! ## SEND -/

/-- R93: SEND on a Built instance asks the driver for a one-shot emission of its id; accepted, the command is in
progress and nothing else of the block changes. That the request is a step of its own, after which SEND has no response
yet, is the model's choice (log 3). -/
def Obligations.SendRequestAccepted : Prop :=
  ∀ (s : State) (id : Word32),
    s.issuer = .host → s.wstate = .built → s.waveId = some id → s.driver.takeSend.1 = .ok →
    exec .send s = .next
      { s with
        driver := s.driver.takeSend.2
        history := s.history ++ [.waveSend id .oneShot .ok]
        polling := true
        response := none }

/-- R102, R115: a request the driver rejects raises `Transmission(st)` with the status's number; the waveform stays
Built with its id, and the driver is not polled. -/
def Obligations.SendRequestRejected : Prop :=
  ∀ (s : State) (id : Word32),
    s.issuer = .host → s.wstate = .built → s.waveId = some id → s.driver.takeSend.1 ≠ .ok →
    exec .send s = .next
      { s with
        driver := s.driver.takeSend.2
        history := s.history ++ [.waveSend id .oneShot s.driver.takeSend.1]
        fault := s.fault ||| 0x10#8
        finfo := some (if s.driver.takeSend.1 = .badId then 1#32 else 2#32)
        response := some 4#8 }

/-- R93, R104: SEND with nothing built raises `NotBuilt(wstate)`; the driver is not called and nothing else changes. -/
def Obligations.SendNotBuilt : Prop :=
  ∀ s : State, s.issuer = .host → s.wstate ≠ .built →
    exec .send s = .next
      { s with
        fault := s.fault ||| 0x40#8
        finfo := some (if s.wstate = .unbuilt then 0#32 else 2#32)
        response := some 6#8 }

/-- R93, R116: one turn of the poll loop is one query: busy waits one interval and goes on, idle answers `OK`, a
hardware fault raises `Transmission(3)`; the lifecycle state and the id keep their values. That a turn is one
step is the model's choice (log 3), and so is the wait as an entry of the history (log 18). -/
def Obligations.PollTurn : Prop :=
  ∀ s : State, s.polling = true →
    (s.driver.takePoll.1 = .busy → step s = .next
      { s with
        driver := s.driver.takePoll.2
        history := s.history ++ [.busyQuery .busy, .wait s.params.pollInterval] }) ∧
    (s.driver.takePoll.1 = .idle → step s = .next
      { s with
        driver := s.driver.takePoll.2
        history := s.history ++ [.busyQuery .idle]
        polling := false
        response := some 0#8 }) ∧
    (s.driver.takePoll.1 = .hwFault → step s = .next
      { s with
        driver := s.driver.takePoll.2
        history := s.history ++ [.busyQuery .hwFault]
        polling := false
        fault := s.fault ||| 0x10#8
        finfo := some 3#32
        response := some 4#8 })

/-- R94: SEND on a Built instance whose driver accepts the request, is busy for `N` queries and then idle makes `N + 1`
queries, waits exactly `N` intervals, and answers `OK`, the block otherwise as it was; one step for the request and one
for each query is the model's choice (log 3). -/
def Obligations.SendBlocksForBusyPolls : Prop :=
  ∀ (N : Nat) (s : State) (id : Word32) (rest : List Input) (sends : List SendStatus) (polls : List BusyAnswer),
    s.polling = false → s.inputs = .command .host 0x0600000000#40 :: rest → s.wstate = .built → s.waveId = some id →
    s.driver.sends = .ok :: sends → s.driver.polls = List.replicate N .busy ++ .idle :: polls →
    core.run (N + 2) s = .next
      { s with
        inputs := rest
        issuer := .host
        driver := { s.driver with sends := sends, polls := polls }
        history := s.history ++ [.waveSend id .oneShot .ok] ++
          (List.replicate N [Event.busyQuery .busy, .wait s.params.pollInterval]).flatten ++ [.busyQuery .idle]
        response := some 0#8 }

/-- R95: as long as the driver answers busy, SEND does not return, however often it asks: no step leaves the loop on
its own. That each query is one step is the model's choice (log 3). -/
def Obligations.BusyForeverHangs : Prop :=
  ∀ (n : Nat) (s : State) (polls : List BusyAnswer),
    s.polling = true → s.driver.polls = List.replicate n .busy ++ polls →
    ∃ t, core.run n s = .next t ∧ t.polling = true ∧ t.response = s.response ∧ t.inputs = s.inputs ∧
      t.driver.polls = polls

/-! ## Rules over every step -/

/-- The machine's invariant holds right after reset. -/
def Obligations.InvariantAtReset : Prop := Inv State.reset

/-- Every reset of an instance whose arithmetic is admissible (R70) establishes the invariant, from any state at all;
R120, R121, R123. -/
def Obligations.ResetEstablishesInvariant : Prop :=
  ∀ s : State, s.params.wellFormed = true → takesReset s = true → ∃ t, step s = .next t ∧ Inv t

/-- Every step keeps the invariant: the timeline's form, the carrier's, the waveform id's, the hand-off's and the fault
registers'. -/
def Obligations.InvariantKept : Prop :=
  ∀ s t : State, Inv s → step s = .next t → Inv t

/-- Every command word a HOST can send has a defined outcome (R62, R104, R106): with the driver initialised, a block in
any state that meets the invariant and takes only the HOST's inputs never stops, and the driver stays initialised. -/
def Obligations.HostRunsNeverStop : Prop :=
  ∀ s : State, Inv s → s.driver.ready = true → (∀ x rest, s.inputs = x :: rest → x.fromHost = true) →
    ∃ t, step s = .next t ∧ t.driver.ready = true

/-- R26: no step but a reset clears a bit of `fault`; bit 0 is not set by any step. -/
def Obligations.FaultBitsSticky : Prop :=
  ∀ s t : State, step s = .next t →
    (takesReset s = false → s.fault &&& t.fault = s.fault) ∧
    (s.fault.getLsbD 0 = false → t.fault.getLsbD 0 = false)

/-- R24: no step but a reset leaves Built or Failed, and only a BUILD from the HOST enters Built. -/
def Obligations.LifecycleLeftOnlyByReset : Prop :=
  ∀ s t : State, takesReset s = false → step s = .next t →
    (s.wstate = .built → t.wstate = .built ∧ t.waveId = s.waveId) ∧
    (s.wstate = .failed → t.wstate = .failed) ∧
    (t.wstate = .built → s.wstate = .built ∨ s.inputs.head? = some (.command .host 0x0500000000#40))

/-- No step writes the instance's parameters, and none but a reset writes the code or the carrier; R18, R21, R22. -/
def Obligations.ConstantsKept : Prop :=
  ∀ s t : State, step s = .next t →
    t.params = s.params ∧ (takesReset s = false → t.code = s.code ∧ t.carrier = s.carrier)

/-- R38: no step but a reset overwrites, removes or reorders a record: every index in use reads as before, and the
timeline gets no shorter. -/
def Obligations.TimelineAppendOnly : Prop :=
  ∀ s t : State, takesReset s = false → step s = .next t →
    s.tlLen ≤ t.tlLen ∧ ∀ i < s.tlLen, t.timeline[i]? = s.timeline[i]?

/-- R39: once the instance is not Unbuilt, so from the hand-off on, no step but a reset changes the timeline. -/
def Obligations.TimelineReadOnlyAfterHandOff : Prop :=
  ∀ s t : State, takesReset s = false → s.wstate ≠ .unbuilt → step s = .next t → t.timeline = s.timeline

/-- R108: of the command words a HOST issues, only BUILD changes the timeline. -/
def Obligations.HostCannotAppend : Prop :=
  ∀ (s t : State) (w : CommandWord) (rest : List Input),
    s.polling = false → s.inputs = .command .host w :: rest → step s = .next t → t.timeline ≠ s.timeline →
    w = 0x0500000000#40

/-- The event history is only ever added to, and an id is released by nothing but a reset of a Built instance; R33,
R96, R122. -/
def Obligations.HistoryGrows : Prop :=
  ∀ s t : State, step s = .next t →
    ∃ es, t.history = s.history ++ es ∧
      ∀ id, Event.release id ∈ es → takesReset s = true ∧ s.wstate = .built ∧ s.waveId = some id

/-- R113, R124: the two primitives of the driver's initialisation, in either order and repeated or not, make the driver
ready, and change nothing of the block. -/
def Obligations.DriverInitialisation : Prop :=
  ∀ (s : State) (rest : List Input), s.polling = false →
    (s.inputs = .configPin :: rest → step s = .next
      { s with
        inputs := rest
        driver := { s.driver with pinConfigured := true }
        history := s.history ++ [.configPin s.params.txPin] }) ∧
    (s.inputs = .clearBuffer :: rest → step s = .next
      { s with
        inputs := rest
        driver := { s.driver with bufferCleared := true }
        history := s.history ++ [.clearBuffer] }) ∧
    (s.driver.ready = true ↔ s.driver.pinConfigured = true ∧ s.driver.bufferCleared = true)

/-- R31, R127: what the HOST reads from each status register, in every state that meets the invariant: the register's
value, signed for `wave_id` and `finfo`, within its legal values; no value from `wave_id` unless Built, from `finfo` unless
a fault is recorded, and from the carrier of an instance that could not be constructed. -/
def Obligations.StatusRegistersReadable : Prop :=
  ∀ s : State, Inv s →
    (s.wstate = .built → ∃ id, s.waveId = some id ∧ readStatus .waveId s = some id.toInt ∧ 0 ≤ id.toInt) ∧
    (s.wstate ≠ .built → readStatus .waveId s = none) ∧
    (s.fault ≠ 0#8 → ∃ info, s.finfo = some info ∧ readStatus .finfo s = some info.toInt) ∧
    (s.fault = 0#8 → readStatus .finfo s = none) ∧
    (∀ c, s.carrier = some c →
      readStatus .cyclePeriod s = some (c.cyclePeriod.toNat : Int) ∧
      readStatus .onDuration s = some (c.onDuration.toNat : Int) ∧
      readStatus .offDuration s = some (c.offDuration.toNat : Int) ∧
      1 ≤ c.cyclePeriod.toNat ∧ c.onDuration.toNat ≤ c.cyclePeriod.toNat ∧
      c.offDuration.toNat = c.cyclePeriod.toNat - c.onDuration.toNat) ∧
    (s.wstate ≠ .failed → s.carrier.isSome = true) ∧
    (s.carrier = none →
      readStatus .cyclePeriod s = none ∧ readStatus .onDuration s = none ∧ readStatus .offDuration s = none) ∧
    readStatus .wstate s = some (if s.wstate = .unbuilt then 0 else if s.wstate = .built then 1 else 2) ∧
    readStatus .tlLen s = some (s.timeline.length : Int) ∧
    readStatus .code s = some (s.code.toNat : Int) ∧
    readStatus .fault s = some (s.fault.toNat : Int)

/-! ## The signal -/

/-- R78: a burst covers its Duration less the remainder by the period, and one shorter than a period has no record; a gap
covers exactly its Duration, a logical bit the sum of both; with the figures the rule gives for `NEC_PROFILE`. -/
def Obligations.TimeCovered : Prop :=
  (∀ (p : Params) (c : Carrier) (d : Nat),
    c.onDuration.toNat + c.offDuration.toNat = c.cyclePeriod.toNat →
    totalTime (burstOf p c d) = d / c.cyclePeriod.toNat * c.cyclePeriod.toNat ∧
    totalTime (burstOf p c d) = d - d % c.cyclePeriod.toNat ∧
    (d < c.cyclePeriod.toNat → burstOf p c d = [])) ∧
  (∀ d : Word32, totalTime [⟨0#32, 0#32, d⟩] = d.toNat) ∧
  (∀ (p : Params) (c : Carrier) (b : Bool),
    c.onDuration.toNat + c.offDuration.toNat = c.cyclePeriod.toNat → p.profile.durationsFit = true →
    let e := if b then p.profile.logicalOne else p.profile.logicalZero
    totalTime (bitRecords p c b) = e.burstDuration / c.cyclePeriod.toNat * c.cyclePeriod.toNat + e.gapDuration) ∧
  totalTime (burstOf defaultParams ⟨26#32, 13#32, 13#32⟩ 562) = 546 ∧
  totalTime (burstOf defaultParams ⟨26#32, 13#32, 13#32⟩ 9000) = 8996 ∧
  totalTime (bitRecords defaultParams ⟨26#32, 13#32, 13#32⟩ true) = 2232 ∧
  totalTime (bitRecords defaultParams ⟨26#32, 13#32, 13#32⟩ false) = 1108

/-- R37, R41: a burst, emitted faithfully, is a square wave: at every time within it the transmitter pin is asserted
exactly in the first `on_duration` microseconds of each period, whatever its level before. -/
def Obligations.BurstIsSquareWave : Prop :=
  ∀ (pin : Fin 32) (level : Bool) (c : Carrier) (n t : Nat) (later : Memory),
    c.onDuration.toNat + c.offDuration.toNat = c.cyclePeriod.toNat → t < n * c.cyclePeriod.toNat →
    signalAt pin level (cycleRecords pin c n ++ later) t =
      some (decide (t % c.cyclePeriod.toNat < c.onDuration.toNat))

/-- R41, R75: a gap holds the level the pin had before it, for its whole Duration; after the last record nothing is
known (U14). -/
def Obligations.GapHoldsLevel : Prop :=
  ∀ (pin : Fin 32) (level : Bool) (d : Word32) (t : Nat) (later : Memory),
    (t < d.toNat → signalAt pin level (⟨0#32, 0#32, d⟩ :: later) t = some level) ∧
    (d.toNat ≤ t → signalAt pin level (⟨0#32, 0#32, d⟩ :: later) t = signalAt pin level later (t - d.toNat)) ∧
    signalAt pin level [] t = none
end

