-- ==== Sys2Proof/Laws/State.lean ====
section
/-! SUPPORT. One lemma per field per named update of State, true by unfolding, so that no later proof unfolds a record
update. -/

namespace Sys2Proof.Machine

variable (s : State)

@[simp] theorem respondOk_params : (s.respondOk).params = s.params := rfl
@[simp] theorem respondOk_code : (s.respondOk).code = s.code := rfl
@[simp] theorem respondOk_carrier : (s.respondOk).carrier = s.carrier := rfl
@[simp] theorem respondOk_timeline : (s.respondOk).timeline = s.timeline := rfl
@[simp] theorem respondOk_wstate : (s.respondOk).wstate = s.wstate := rfl
@[simp] theorem respondOk_waveId : (s.respondOk).waveId = s.waveId := rfl
@[simp] theorem respondOk_fault : (s.respondOk).fault = s.fault := rfl
@[simp] theorem respondOk_finfo : (s.respondOk).finfo = s.finfo := rfl
@[simp] theorem respondOk_response : (s.respondOk).response = some 0#8 := rfl
@[simp] theorem respondOk_issuer : (s.respondOk).issuer = s.issuer := rfl
@[simp] theorem respondOk_polling : (s.respondOk).polling = s.polling := rfl
@[simp] theorem respondOk_inputs : (s.respondOk).inputs = s.inputs := rfl
@[simp] theorem respondOk_driver : (s.respondOk).driver = s.driver := rfl
@[simp] theorem respondOk_history : (s.respondOk).history = s.history := rfl

@[simp] theorem recordFault_params (r : Raise) : (s.recordFault r).params = s.params := rfl
@[simp] theorem recordFault_code (r : Raise) : (s.recordFault r).code = s.code := rfl
@[simp] theorem recordFault_carrier (r : Raise) : (s.recordFault r).carrier = s.carrier := rfl
@[simp] theorem recordFault_timeline (r : Raise) : (s.recordFault r).timeline = s.timeline := rfl
@[simp] theorem recordFault_wstate (r : Raise) : (s.recordFault r).wstate = s.wstate := rfl
@[simp] theorem recordFault_waveId (r : Raise) : (s.recordFault r).waveId = s.waveId := rfl
@[simp] theorem recordFault_fault (r : Raise) : (s.recordFault r).fault = s.fault ||| faultBit r.cause := rfl
@[simp] theorem recordFault_finfo (r : Raise) : (s.recordFault r).finfo = some r.info := rfl
@[simp] theorem recordFault_response (r : Raise) : (s.recordFault r).response = s.response := rfl
@[simp] theorem recordFault_issuer (r : Raise) : (s.recordFault r).issuer = s.issuer := rfl
@[simp] theorem recordFault_polling (r : Raise) : (s.recordFault r).polling = s.polling := rfl
@[simp] theorem recordFault_inputs (r : Raise) : (s.recordFault r).inputs = s.inputs := rfl
@[simp] theorem recordFault_driver (r : Raise) : (s.recordFault r).driver = s.driver := rfl
@[simp] theorem recordFault_history (r : Raise) : (s.recordFault r).history = s.history := rfl

@[simp] theorem raise_params (b : Bool) (r : Raise) : (s.raise b r).params = s.params := rfl
@[simp] theorem raise_code (b : Bool) (r : Raise) : (s.raise b r).code = s.code := rfl
@[simp] theorem raise_carrier (b : Bool) (r : Raise) : (s.raise b r).carrier = s.carrier := rfl
@[simp] theorem raise_timeline (b : Bool) (r : Raise) : (s.raise b r).timeline = s.timeline := rfl
@[simp] theorem raise_wstate (b : Bool) (r : Raise) : (s.raise b r).wstate = (if b then .failed else s.wstate) := rfl
@[simp] theorem raise_waveId (b : Bool) (r : Raise) : (s.raise b r).waveId = s.waveId := rfl
@[simp] theorem raise_fault (b : Bool) (r : Raise) : (s.raise b r).fault = s.fault ||| faultBit r.cause := rfl
@[simp] theorem raise_finfo (b : Bool) (r : Raise) : (s.raise b r).finfo = some r.info := rfl
@[simp] theorem raise_response (b : Bool) (r : Raise) : (s.raise b r).response = some (BitVec.ofNat 8 (causeCode r.cause)) := rfl
@[simp] theorem raise_issuer (b : Bool) (r : Raise) : (s.raise b r).issuer = s.issuer := rfl
@[simp] theorem raise_polling (b : Bool) (r : Raise) : (s.raise b r).polling = s.polling := rfl
@[simp] theorem raise_inputs (b : Bool) (r : Raise) : (s.raise b r).inputs = s.inputs := rfl
@[simp] theorem raise_driver (b : Bool) (r : Raise) : (s.raise b r).driver = s.driver := rfl
@[simp] theorem raise_history (b : Bool) (r : Raise) : (s.raise b r).history = s.history := rfl

@[simp] theorem log_params (e : Event) : (s.log e).params = s.params := rfl
@[simp] theorem log_code (e : Event) : (s.log e).code = s.code := rfl
@[simp] theorem log_carrier (e : Event) : (s.log e).carrier = s.carrier := rfl
@[simp] theorem log_timeline (e : Event) : (s.log e).timeline = s.timeline := rfl
@[simp] theorem log_wstate (e : Event) : (s.log e).wstate = s.wstate := rfl
@[simp] theorem log_waveId (e : Event) : (s.log e).waveId = s.waveId := rfl
@[simp] theorem log_fault (e : Event) : (s.log e).fault = s.fault := rfl
@[simp] theorem log_finfo (e : Event) : (s.log e).finfo = s.finfo := rfl
@[simp] theorem log_response (e : Event) : (s.log e).response = s.response := rfl
@[simp] theorem log_issuer (e : Event) : (s.log e).issuer = s.issuer := rfl
@[simp] theorem log_polling (e : Event) : (s.log e).polling = s.polling := rfl
@[simp] theorem log_inputs (e : Event) : (s.log e).inputs = s.inputs := rfl
@[simp] theorem log_driver (e : Event) : (s.log e).driver = s.driver := rfl
@[simp] theorem log_history (e : Event) : (s.log e).history = s.history ++ [e] := rfl

@[simp] theorem clearRegisters_params (x : Word32) : (s.clearRegisters x).params = s.params := rfl
@[simp] theorem clearRegisters_code (x : Word32) : (s.clearRegisters x).code = x := rfl
@[simp] theorem clearRegisters_carrier (x : Word32) : (s.clearRegisters x).carrier = none := rfl
@[simp] theorem clearRegisters_timeline (x : Word32) : (s.clearRegisters x).timeline = [] := rfl
@[simp] theorem clearRegisters_wstate (x : Word32) : (s.clearRegisters x).wstate = .unbuilt := rfl
@[simp] theorem clearRegisters_waveId (x : Word32) : (s.clearRegisters x).waveId = none := rfl
@[simp] theorem clearRegisters_fault (x : Word32) : (s.clearRegisters x).fault = 0#8 := rfl
@[simp] theorem clearRegisters_finfo (x : Word32) : (s.clearRegisters x).finfo = none := rfl
@[simp] theorem clearRegisters_response (x : Word32) : (s.clearRegisters x).response = none := rfl
@[simp] theorem clearRegisters_issuer (x : Word32) : (s.clearRegisters x).issuer = .host := rfl
@[simp] theorem clearRegisters_polling (x : Word32) : (s.clearRegisters x).polling = false := rfl
@[simp] theorem clearRegisters_inputs (x : Word32) : (s.clearRegisters x).inputs = s.inputs := rfl
@[simp] theorem clearRegisters_driver (x : Word32) : (s.clearRegisters x).driver = s.driver := rfl
@[simp] theorem clearRegisters_history (x : Word32) : (s.clearRegisters x).history = s.history := rfl

@[simp] theorem releaseWave_params : s.releaseWave.params = s.params := by
  unfold State.releaseWave; split <;> rfl
@[simp] theorem releaseWave_code : s.releaseWave.code = s.code := by
  unfold State.releaseWave; split <;> rfl
@[simp] theorem releaseWave_carrier : s.releaseWave.carrier = s.carrier := by
  unfold State.releaseWave; split <;> rfl
@[simp] theorem releaseWave_timeline : s.releaseWave.timeline = s.timeline := by
  unfold State.releaseWave; split <;> rfl
@[simp] theorem releaseWave_wstate : s.releaseWave.wstate = s.wstate := by
  unfold State.releaseWave; split <;> rfl
@[simp] theorem releaseWave_waveId : s.releaseWave.waveId = s.waveId := by
  unfold State.releaseWave; split <;> rfl
@[simp] theorem releaseWave_fault : s.releaseWave.fault = s.fault := by
  unfold State.releaseWave; split <;> rfl
@[simp] theorem releaseWave_finfo : s.releaseWave.finfo = s.finfo := by
  unfold State.releaseWave; split <;> rfl
@[simp] theorem releaseWave_response : s.releaseWave.response = s.response := by
  unfold State.releaseWave; split <;> rfl
@[simp] theorem releaseWave_issuer : s.releaseWave.issuer = s.issuer := by
  unfold State.releaseWave; split <;> rfl
@[simp] theorem releaseWave_polling : s.releaseWave.polling = s.polling := by
  unfold State.releaseWave; split <;> rfl
@[simp] theorem releaseWave_inputs : s.releaseWave.inputs = s.inputs := by
  unfold State.releaseWave; split <;> rfl
@[simp] theorem releaseWave_driver : s.releaseWave.driver = s.driver := by
  unfold State.releaseWave; split <;> rfl

/-- The history after a release: one event when a Built instance holds an id, none otherwise; R122. -/
theorem releaseWave_history :
    s.releaseWave.history =
      if s.wstate = .built then s.history ++ s.waveId.toList.map Event.release else s.history := by
  unfold State.releaseWave
  cases hw : s.wstate <;> cases hi : s.waveId <;> simp

@[simp] theorem resetWith_params (x : Word32) : (s.resetWith x).params = s.params := by
  unfold State.resetWith; split <;> simp
@[simp] theorem resetWith_inputs (x : Word32) : (s.resetWith x).inputs = s.inputs := by
  unfold State.resetWith; split <;> simp
@[simp] theorem resetWith_driver (x : Word32) : (s.resetWith x).driver = s.driver := by
  unfold State.resetWith; split <;> simp
@[simp] theorem resetWith_history (x : Word32) : (s.resetWith x).history = s.releaseWave.history := by
  unfold State.resetWith; split <;> simp
@[simp] theorem resetWith_timeline (x : Word32) : (s.resetWith x).timeline = [] := by
  unfold State.resetWith; split <;> simp
@[simp] theorem resetWith_waveId (x : Word32) : (s.resetWith x).waveId = none := by
  unfold State.resetWith; split <;> simp
@[simp] theorem resetWith_code (x : Word32) : (s.resetWith x).code = x := by
  unfold State.resetWith; split <;> simp
@[simp] theorem resetWith_response (x : Word32) : (s.resetWith x).response = none := by
  unfold State.resetWith; split <;> simp
@[simp] theorem resetWith_issuer (x : Word32) : (s.resetWith x).issuer = .host := by
  unfold State.resetWith; split <;> simp
@[simp] theorem resetWith_polling (x : Word32) : (s.resetWith x).polling = false := by
  unfold State.resetWith; split <;> simp

@[simp] theorem raiseIllegal_eq (op : Word8) :
    s.raiseIllegal op = s.raise s.inBuild { cause := .illegalCmd, info := op.setWidth 32 } := rfl

@[simp] theorem tlLen_eq : s.tlLen = s.timeline.length := rfl

end Sys2Proof.Machine
end

