-- ==== Sys2Proof/Laws/Timeline.lean ====
section
/-! SUPPORT. What a run of appends can do to a timeline: it keeps what was there, writes a prefix of what it was given,
and keeps the timeline's form. -/

namespace Sys2Proof.Machine

theorem hasRoom_iff (cap : Option Nat) (m : Memory) :
    hasRoom cap m = true ↔ ∀ n, cap = some n → m.length < n := by
  cases cap with
  | none => simp [hasRoom]
  | some c => simp only [hasRoom, decide_eq_true_eq, Option.some.injEq, forall_eq']; omega

/-- Every way a run of appends can end. -/
theorem appendRecords_cases (cap : Option Nat) (w : Bool) (ps : List Pulse) (m : Memory) :
    (appendRecords cap w ps m = (m ++ ps, .all) ∧ (w = true ∨ ps = [])) ∨
    (∃ (qs : List Pulse) (q : Pulse) (rest : List Pulse), ps = qs ++ q :: rest ∧ appendRecords cap w ps m = (m ++ qs, .overflow) ∧
      (w = true ∨ qs = []) ∧ hasRoom cap (m ++ qs) = false) ∨
    (ps ≠ [] ∧ w = false ∧ hasRoom cap m = true ∧ appendRecords cap w ps m = (m, .readOnly)) := by
  induction ps generalizing m with
  | nil => left; simp [appendRecords]
  | cons p ps ih =>
    by_cases hr : hasRoom cap m = true
    · cases w with
      | false => right; right; simp [appendRecords, hr]
      | true =>
        have hstep : appendRecords cap true (p :: ps) m = appendRecords cap true ps (m ++ [p]) := by
          simp [appendRecords, hr]
        rcases ih (m ++ [p]) with ⟨h, -⟩ | ⟨qs, q, rest, rfl, h, -, hfull⟩ | ⟨-, h, -⟩
        · left; exact ⟨by rw [hstep, h]; simp, .inl rfl⟩
        · right; left
          exact ⟨p :: qs, q, rest, rfl, by rw [hstep, h]; simp, .inl rfl, by simpa using hfull⟩
        · cases h
    · right; left
      exact ⟨[], p, ps, rfl, by simp [appendRecords, hr], .inr rfl, by simpa using hr⟩

/-- When everything fits and the timeline is writable, everything is written; R73. -/
theorem appendRecords_fits {cap : Option Nat} {ps : List Pulse} {m : Memory}
    (h : ∀ n, cap = some n → m.length + ps.length ≤ n) :
    appendRecords cap true ps m = (m ++ ps, .all) := by
  rcases appendRecords_cases cap true ps m with ⟨h', -⟩ | ⟨qs, q, rest, rfl, -, -, hfull⟩ | ⟨-, h', -⟩
  · exact h'
  · have : hasRoom cap (m ++ qs) = true := (hasRoom_iff ..).2 fun n hn => by
      have := h n hn; simp at this ⊢; omega
    simp [this] at hfull
  · cases h'

/-- When not everything fits, exactly the records that fit are written; R73. -/
theorem appendRecords_overflow {n : Nat} {ps : List Pulse} {m : Memory}
    (hm : m.length ≤ n) (h : n < m.length + ps.length) :
    appendRecords (some n) true ps m = (m ++ ps.take (n - m.length), .overflow) := by
  induction ps generalizing m with
  | nil => simp at h; omega
  | cons p ps ih =>
    by_cases hr : m.length < n
    · have hroom : hasRoom (some n) m = true := by simp [hasRoom]; omega
      obtain ⟨k, hk⟩ : ∃ k, n - m.length = k + 1 := ⟨n - m.length - 1, by omega⟩
      have := ih (m := m ++ [p]) (by simp; omega) (by simp at h ⊢; omega)
      have hk' : n - (List.length m + 1) = k := by omega
      simp [appendRecords, hroom, this, hk, hk']
    · have : n - m.length = 0 := by omega
      have hroom : hasRoom (some n) m = false := by simp [hasRoom]; omega
      simp [appendRecords, hroom, this]

/-- A timeline that may not be written is not written; R15. -/
theorem appendRecords_readOnly (cap : Option Nat) (ps : List Pulse) (m : Memory) :
    (appendRecords cap false ps m).1 = m := by
  rcases appendRecords_cases cap false ps m with ⟨h, hps⟩ | ⟨qs, q, rest, rfl, h, hqs, -⟩ | ⟨-, -, -, h⟩
  · rw [h]; simpa using hps
  · rw [h]; simpa using hqs
  · simp [h]

/-- What is there stays in place. -/
theorem appendRecords_extends (cap : Option Nat) (w : Bool) (ps : List Pulse) (m : Memory) :
    ∃ qs, qs <+: ps ∧ (appendRecords cap w ps m).1 = m ++ qs := by
  rcases appendRecords_cases cap w ps m with ⟨h, -⟩ | ⟨qs, q, rest, rfl, h, -⟩ | ⟨-, -, -, h⟩
  · exact ⟨ps, List.prefix_rfl, by simp [h]⟩
  · exact ⟨qs, List.prefix_append .., by simp [h]⟩
  · exact ⟨[], List.nil_prefix, by simp [h]⟩

@[simp] theorem wf_nil (cap : Option Nat) : Memory.wf cap [] = true := by cases cap <;> simp [Memory.wf]

/-- Appending records that name no pin twice keeps the timeline's form; R23, R37. -/
theorem appendRecords_wf {cap : Option Nat} {w : Bool} {ps : List Pulse} {m : Memory}
    (hm : Memory.wf cap m = true) (hps : ∀ p ∈ ps, p.set &&& p.clr = 0#32) :
    Memory.wf cap (appendRecords cap w ps m).1 = true := by
  induction ps generalizing m with
  | nil => simpa [appendRecords] using hm
  | cons p ps ih =>
    simp only [appendRecords]
    by_cases hr : hasRoom cap m = true
    · cases w with
      | false => simpa [hr] using hm
      | true =>
        have hp := hps p (by simp)
        have : Memory.wf cap (m ++ [p]) = true := by
          cases cap with
          | none => simp [Memory.wf] at hm ⊢; exact ⟨hm, hp⟩
          | some n =>
            simp [Memory.wf] at hm ⊢
            simp [hasRoom] at hr
            exact ⟨by omega, hm.2, hp⟩
        simpa [hr] using ih this (fun q hq => hps q (by simp [hq]))
    · simpa [hr] using hm

/-- Reading the whole timeline gives the whole timeline; R40. -/
@[simp] theorem memRead_all (m : Memory) : memRead 0 m.length m = m := by simp [memRead]

@[simp] theorem burstRecords_length (pin : Fin 32) (c : Carrier) (n : Nat) :
    (burstRecords pin c n).length = 2 * n := by
  induction n with
  | zero => rfl
  | succ n ih => simp [burstRecords, ih]; omega

theorem pinMask_disjoint (pin : Fin 32) (c : Carrier) (n : Nat) :
    ∀ p ∈ burstRecords pin c n, p.set &&& p.clr = 0#32 := by
  induction n with
  | zero => simp [burstRecords]
  | succ n ih =>
    intro p hp
    simp only [burstRecords, List.mem_cons] at hp
    rcases hp with rfl | rfl | hp
    · simp [assertRecord]
    · simp [clearRecord]
    · exact ih p hp

end Sys2Proof.Machine
end

