-- ==== Sys2Proof/Laws/Effects.lean ====
section
/-! SUPPORT. What the append operations can do: an operation that adds records changes the timeline only, and only at
its end. Provers cite these instead of unfolding the operations. -/

namespace Sys2Proof.Machine

/-- `t` is `s` with records added to the end of the timeline: none with one pin in both masks, none beyond the capacity,
and none at all unless Unbuilt. -/
def Appended (s t : State) : Prop :=
  ∃ ps, t = { s with timeline := s.timeline ++ ps } ∧ (s.wstate ≠ .unbuilt → ps = []) ∧
    (Memory.wf s.params.tlCap s.timeline = true → Memory.wf s.params.tlCap (s.timeline ++ ps) = true)

theorem appended_refl (s : State) : Appended s s := ⟨[], by simp, fun _ => rfl, by simp⟩

theorem appended_trans {s t u : State} (h : Appended s t) (h' : Appended t u) : Appended s u := by
  obtain ⟨ps, rfl, hro, hwf⟩ := h
  obtain ⟨qs, rfl, hro', hwf'⟩ := h'
  exact ⟨ps ++ qs, by simp, fun h => by simp [hro h, hro' h], fun h => by simpa using hwf' (hwf h)⟩

/-- `e`, begun in `s`, has done nothing but add records, also where it was ended by a fault. -/
def Effect.Extends (s : State) (e : Effect) : Prop :=
  match e with
  | .done t => Appended s t
  | .raised r t => Appended s t ∧ r.cause ≠ .validation
  | _ => True

theorem extends_done (s : State) : (Effect.done s).Extends s := appended_refl s

/-- One operation after another. -/
theorem extends_andThen {s : State} {e : Effect} {f : State → Effect} (he : e.Extends s)
    (hf : ∀ t, (f t).Extends t) : (e.andThen f).Extends s := by
  match e, he with
  | .done t, ht =>
    have := hf t
    simp only [Effect.andThen]
    cases hft : f t with
    | stopped x => trivial
    | refused x => trivial
    | done u => rw [hft] at this; exact appended_trans ht this
    | raised r u => rw [hft] at this; exact ⟨appended_trans ht this.1, this.2⟩
  | .raised r t, h => exact h
  | .stopped x, _ => trivial
  | .refused x, _ => trivial

theorem appendAll_extends {ps : List Pulse} (hps : ∀ p ∈ ps, p.set &&& p.clr = 0#32) (s : State) :
    (appendAll ps s).Extends s := by
  have hwf := fun h => appendRecords_wf (w := s.wstate == .unbuilt) (cap := s.params.tlCap) (m := s.timeline) h hps
  unfold appendAll
  rcases appendRecords_cases s.params.tlCap (s.wstate == .unbuilt) ps s.timeline with
    ⟨h, hw⟩ | ⟨qs, q, rest, rfl, h, hw, -⟩ | ⟨-, -, -, h⟩
  · rw [h] at hwf ⊢
    exact ⟨ps, rfl, fun hn => by simpa [hn] using hw, hwf⟩
  · rw [h] at hwf ⊢
    exact ⟨⟨qs, rfl, fun hn => by simpa [hn] using hw, hwf⟩, by simp⟩
  · rw [h]; trivial

theorem appendGap_extends (d : Word32) (s : State) : (appendGap d s).Extends s :=
  appendAll_extends (by simp [gapRecord]) s

theorem appendCarrier_extends (d : Nat) (s : State) : (appendCarrier d s).Extends s := by
  unfold appendCarrier
  split
  · trivial
  · exact appendAll_extends (pinMask_disjoint _ _ _) s

theorem appendBit_extends (b : Bool) (s : State) : (appendBit b s).Extends s := by
  unfold appendBit appendLogicalBit
  split
  · exact extends_andThen (appendCarrier_extends ..) (appendGap_extends _)
  · exact extends_andThen (appendGap_extends ..) (appendCarrier_extends _)

theorem runPayload_extends (cs : List (Except Word8 Bool)) (s : State) : (runPayload cs s).Extends s := by
  induction cs generalizing s with
  | nil => exact extends_done s
  | cons c cs ih =>
    cases c with
    | error op => exact ⟨appended_refl s, by simp⟩
    | ok b => exact extends_andThen (appendBit_extends b s) ih

theorem appendPayload_extends (s : State) : (appendPayload s).Extends s := runPayload_extends _ s

theorem appendTrailing_extends (s : State) : (appendTrailing s).Extends s := by
  unfold appendTrailing
  split
  · exact appendCarrier_extends ..
  · exact extends_done s

/-- The whole assembly of BUILD; R81. -/
theorem assemble_extends (s : State) : (assemble s).Extends s :=
  extends_andThen (extends_andThen (extends_andThen (appendCarrier_extends ..) (appendGap_extends _))
    appendPayload_extends) appendTrailing_extends

/-- Everything an append of records that fit does. -/
theorem appendAll_fits {ps : List Pulse} {s : State} (hw : s.wstate = .unbuilt)
    (h : ∀ n, s.params.tlCap = some n → s.timeline.length + ps.length ≤ n) :
    appendAll ps s = .done { s with timeline := s.timeline ++ ps } := by
  simp [appendAll, hw, appendRecords_fits h]

/-- Everything an append of records that do not all fit does. -/
theorem appendAll_overflow {ps : List Pulse} {s : State} {n : Nat} (hw : s.wstate = .unbuilt)
    (hc : s.params.tlCap = some n) (hm : s.timeline.length ≤ n) (h : n < s.timeline.length + ps.length) :
    appendAll ps s = .raised { cause := .tlOverflow, info := 0#32 }
      { s with timeline := s.timeline ++ ps.take (n - s.timeline.length) } := by
  simp [appendAll, hw, hc, appendRecords_overflow hm h]

/-- An append with room for its first record, on an instance that is not Unbuilt, stops; R15. -/
theorem appendAll_readOnly {p : Pulse} {ps : List Pulse} {s : State} (hw : s.wstate ≠ .unbuilt)
    (hr : hasRoom s.params.tlCap s.timeline = true) : appendAll (p :: ps) s = .stopped .timelineReadOnly := by
  simp [appendAll, appendRecords, hr, hw]

/-- An empty run of records appends nothing, whatever the state. -/
@[simp] theorem appendAll_nil (s : State) : appendAll [] s = .done s := by
  simp [appendAll, appendRecords]

/-- Two runs of appends, one after the other, are one run. -/
theorem appendRecords_append (cap : Option Nat) (w : Bool) (ps qs : List Pulse) (m : Memory) :
    appendRecords cap w (ps ++ qs) m =
      if (appendRecords cap w ps m).2 = .all then appendRecords cap w qs (appendRecords cap w ps m).1
      else appendRecords cap w ps m := by
  induction ps generalizing m with
  | nil => simp [appendRecords]
  | cons p ps ih =>
    simp only [List.cons_append, appendRecords]
    by_cases hr : hasRoom cap m = true
    · cases w <;> simp [hr, ih]
    · simp [hr]

/-- Two append operations, one after the other, are one; R49, R73. -/
theorem appendAll_andThen (ps qs : List Pulse) (s : State) :
    (appendAll ps s).andThen (appendAll qs) = appendAll (ps ++ qs) s := by
  simp only [appendAll, appendRecords_append]
  cases appendRecords s.params.tlCap (s.wstate == .unbuilt) ps s.timeline with
  | mk m e => cases e <;> simp [Effect.andThen, appendAll]

theorem andThen_assoc (e : Effect) (f g : State → Effect) :
    (e.andThen f).andThen g = e.andThen (fun s => (f s).andThen g) := by
  cases e <;> rfl

/-- The carrier-free form of a burst. -/
theorem appendCarrier_eq {c : Carrier} {s : State} (hc : s.carrier = some c) (d : Nat) :
    appendCarrier d s = appendAll (burstRecords s.params.txPin c (numCycles c d)) s := by
  simp [appendCarrier, hc]

end Sys2Proof.Machine
end

