-- ==== Sys2Proof/Laws/Step.lean ====
section
/-! SUPPORT. Every way a step and an instruction can answer a next state: one inversion lemma each, from which the
invariants follow. -/

namespace Sys2Proof.Machine

/-- What a permitted or unpermitted command does: its body, or `IllegalCmd`; R108. -/
theorem issue_cases {i : Instr} {body : State → Result} {s t : State} (h : issue i body s = .next t) :
    (mayIssue i s.issuer = true ∧ body s = .next t) ∨
    (mayIssue i s.issuer = false ∧ t = s.raiseIllegal i.opcode) := by
  unfold issue at h
  by_cases hm : mayIssue i s.issuer = true
  · left; simpa [hm] using h
  · right; simp [hm] at h; exact ⟨by simpa using hm, h.symm⟩

/-- A finished operation answered `OK`, or raised a fault; R53, R103. -/
theorem finish_cases {b : Bool} {e : Effect} {t : State} (h : e.finish b = .next t) :
    (∃ u, e = .done u ∧ t = u.respondOk) ∨ (∃ r u, e = .raised r u ∧ t = u.raise b r) := by
  cases e with
  | done u => left; exact ⟨u, rfl, by simpa [Effect.finish, Effect.finishWith] using h.symm⟩
  | raised r u => right; exact ⟨r, u, rfl, by simpa [Effect.finish, Effect.finishWith] using h.symm⟩
  | stopped x => simp [Effect.finish, Effect.finishWith] at h
  | refused x => simp [Effect.finish, Effect.finishWith] at h

/-- A run of append operations that answers added records and answered `OK`, or added some and raised a fault. -/
theorem micro_cases {e : Effect} {s t : State} {b : Bool} (he : e.Extends s) (h : e.finish b = .next t) :
    ∃ u, Appended s u ∧ (t = u.respondOk ∨ ∃ r, r.cause ≠ .validation ∧ t = u.raise b r) := by
  rcases finish_cases h with ⟨u, rfl, rfl⟩ | ⟨r, u, rfl, rfl⟩
  · exact ⟨u, he, .inl rfl⟩
  · exact ⟨u, he.1, .inr ⟨r, he.2, rfl⟩⟩

/-- The submission always answers, by the driver's id; R82. -/
theorem submit_eq (s : State) :
    submit s =
      if s.driver.takeCreate.1.toInt < 0 then
        { s with driver := s.driver.takeCreate.2,
                 history := s.history ++ [Event.waveCreate s.timeline s.driver.takeCreate.1] }.raise true
          { cause := .hwConstruct, info := s.driver.takeCreate.1 }
      else
        { s with driver := s.driver.takeCreate.2,
                 history := s.history ++ [Event.waveCreate s.timeline s.driver.takeCreate.1],
                 waveId := some s.driver.takeCreate.1, wstate := .built, response := some 0#8 } := by
  simp [submit, State.log, State.respondOk]

/-- A gap leaves a timeline that is not empty. -/
theorem appendGap_nonempty {d : Word32} {s t : State} (h : appendGap d s = .done t) : t.timeline ≠ [] := by
  unfold appendGap appendAll at h
  rcases appendRecords_cases s.params.tlCap (s.wstate == .unbuilt) [gapRecord d] s.timeline with
    ⟨h', -⟩ | ⟨qs, q, rest, -, h', -⟩ | ⟨-, -, -, h'⟩ <;> rw [h'] at h
  · cases h; simp
  · cases h
  · cases h

/-- Two operations in turn came to their ends. -/
theorem andThen_done {e : Effect} {f : State → Effect} {t : State} (h : e.andThen f = .done t) :
    ∃ u, e = .done u ∧ f u = .done t := by
  cases e with
  | done u => exact ⟨u, rfl, h⟩
  | raised r u => cases h
  | stopped x => cases h
  | refused x => cases h

/-- The timeline a BUILD submits is not empty; R81. -/
theorem assemble_nonempty {s t : State} (h : assemble s = .done t) : t.timeline ≠ [] := by
  obtain ⟨u₃, h₃, h₄⟩ := andThen_done h
  obtain ⟨u₂, h₂, h₃⟩ := andThen_done h₃
  obtain ⟨u₁, -, h₂⟩ := andThen_done h₂
  have e₃ := appendPayload_extends u₂
  have e₄ := appendTrailing_extends u₃
  rw [h₃] at e₃; rw [h₄] at e₄
  obtain ⟨ps, rfl, -⟩ := appended_trans e₃ e₄
  simp [appendGap_nonempty h₂]

/-- Every way BUILD, begun Unbuilt with the driver ready, answers a next state; R80, R82, R84. -/
theorem build_cases {s t : State} (h : (assemble s).finishWith true submit = .next t) :
    ∃ u, Appended s u ∧
      ((∃ r, r.cause ≠ .validation ∧ t = u.raise true r) ∨
        (u.timeline ≠ [] ∧ ∃ v, v = { u with driver := u.driver.takeCreate.2,
                                             history := u.history ++ [Event.waveCreate u.timeline u.driver.takeCreate.1] } ∧
          ((u.driver.takeCreate.1.toInt < 0 ∧
              t = v.raise true { cause := .hwConstruct, info := u.driver.takeCreate.1 }) ∨
            (0 ≤ u.driver.takeCreate.1.toInt ∧
              t = { v with waveId := some u.driver.takeCreate.1, wstate := .built }.respondOk)))) := by
  have he := assemble_extends s
  cases ha : assemble s with
  | stopped x => rw [ha] at h; cases h
  | refused x => rw [ha] at h; cases h
  | raised r u =>
    rw [ha] at h he
    exact ⟨u, he.1, .inl ⟨r, he.2, by simpa [Effect.finishWith] using h.symm⟩⟩
  | done u =>
    rw [ha] at h he
    refine ⟨u, he, .inr ⟨assemble_nonempty ha, _, rfl, ?_⟩⟩
    simp only [Effect.finishWith, submit_eq, Host.Outcome.next.injEq] at h
    by_cases hid : u.driver.takeCreate.1.toInt < 0
    · left; rw [if_pos hid] at h; exact ⟨hid, h.symm⟩
    · right; rw [if_neg hid] at h; exact ⟨by omega, h.symm⟩

/-- Every way an instruction answers a next state. -/
theorem exec_cases {i : Instr} {s t : State} (h : exec i s = .next t) :
    (t = s.raiseIllegal i.opcode) ∨
    (s.issuer ≠ .host ∧ ∃ u, Appended s u ∧
      (t = u.respondOk ∨ ∃ r, r.cause ≠ .validation ∧ t = u.raise s.inBuild r)) ∨
    (i = .build ∧ s.issuer = .host ∧ s.wstate ≠ .unbuilt ∧
      t = s.raise false { cause := .lifecycle, info := wstateCode s.wstate }) ∨
    (i = .build ∧ s.issuer = .host ∧ s.wstate = .unbuilt ∧ s.driver.ready = true ∧
      (assemble s).finishWith true submit = .next t) ∨
    (i = .send ∧ s.issuer = .host ∧ s.wstate ≠ .built ∧
      t = s.raise false { cause := .notBuilt, info := wstateCode s.wstate }) ∨
    (i = .send ∧ s.issuer = .host ∧ s.wstate = .built ∧ ∃ id u, s.waveId = some id ∧
      u = { s with driver := s.driver.takeSend.2 }.log (.waveSend id .oneShot s.driver.takeSend.1) ∧
      ((s.driver.takeSend.1 = .ok ∧ t = { u with polling := true, response := none }) ∨
        (s.driver.takeSend.1 ≠ .ok ∧
          t = u.raise false { cause := .transmission, info := sendStatusCode s.driver.takeSend.1 }))) := by
  cases i with
  | appendCarrier d =>
    simp only [exec, execAppendCarrier] at h
    rcases issue_cases h with ⟨hm, hb⟩ | ⟨-, ht⟩
    · right; left
      exact ⟨by simp [mayIssue] at hm; simp [hm], micro_cases (appendCarrier_extends ..) hb⟩
    · exact .inl ht
  | appendGap d =>
    simp only [exec, execAppendGap] at h
    rcases issue_cases h with ⟨hm, hb⟩ | ⟨-, ht⟩
    · right; left
      exact ⟨by simp [mayIssue] at hm; simp [hm], micro_cases (appendGap_extends ..) hb⟩
    · exact .inl ht
  | appendBit b =>
    simp only [exec, execAppendBit] at h
    rcases issue_cases h with ⟨hm, hb⟩ | ⟨-, ht⟩
    · right; left
      exact ⟨by simp [mayIssue] at hm; simp [hm], micro_cases (appendBit_extends ..) hb⟩
    · exact .inl ht
  | payload =>
    simp only [exec, execPayload] at h
    rcases issue_cases h with ⟨hm, hb⟩ | ⟨-, ht⟩
    · right; left
      exact ⟨by simp [mayIssue] at hm; simp [hm], micro_cases (appendPayload_extends ..) hb⟩
    · exact .inl ht
  | build =>
    simp only [exec, execBuild] at h
    rcases issue_cases h with ⟨hm, hb⟩ | ⟨-, ht⟩
    · simp only [mayIssue, beq_iff_eq] at hm
      by_cases hw : s.wstate = .unbuilt
      · cases hr : s.driver.ready with
        | false => simp [hw, hr] at hb
        | true => simp only [hw, hr] at hb; exact .inr (.inr (.inr (.inl ⟨rfl, hm, hw, rfl, by simpa using hb⟩)))
      · simp [hw] at hb; exact .inr (.inr (.inl ⟨rfl, hm, hw, hb.symm⟩))
    · exact .inl ht
  | send =>
    simp only [exec, execSend] at h
    rcases issue_cases h with ⟨hm, hb⟩ | ⟨-, ht⟩
    · simp only [mayIssue, beq_iff_eq] at hm
      by_cases hw : s.wstate = .built
      · cases hid : s.waveId with
        | none => simp [hw, hid] at hb
        | some id =>
          refine .inr (.inr (.inr (.inr (.inr ⟨rfl, hm, hw, id, _, rfl, rfl, ?_⟩))))
          by_cases hs : s.driver.takeSend.1 = .ok
          · left; simp [hw, hid, hs] at hb; exact ⟨hs, by simp [← hb, hs, hw]⟩
          · right; simp [hw, hid, hs] at hb; exact ⟨hs, by simp [← hb, hw]⟩
      · simp [hw] at hb; exact .inr (.inr (.inr (.inr (.inl ⟨rfl, hm, hw, hb.symm⟩))))
    · exact .inl ht

/-- Every way a step answers a next state. -/
theorem step_cases {s t : State} (h : step s = .next t) :
    (s.polling = true ∧ t = pollOnce s) ∨
    (s.polling = false ∧ s.inputs = [] ∧ t = s) ∨
    (∃ x rest, s.polling = false ∧ s.inputs = x :: rest ∧ takeInput x { s with inputs := rest } = .next t) := by
  unfold step advance at h
  by_cases hp : s.polling = true
  · left; simp [hp] at h; exact ⟨hp, h.symm⟩
  · rw [if_neg hp] at h
    cases hi : s.inputs with
    | nil => right; left; rw [hi] at h; exact ⟨by simpa using hp, rfl, by simpa using h.symm⟩
    | cons x rest => right; right; rw [hi] at h; exact ⟨x, rest, by simpa using hp, rfl, h⟩

end Sys2Proof.Machine
end

