-- ==== Sys2Proof/Laws/Advance.lean ====
section
/-! SUPPORT. Everything any step but a reset can do to the block, said once (`Advance`); the rules over every step
follow from it field by field. -/

namespace Sys2Proof.Machine

@[simp] theorem faultBit_ne_zero (c : Cause) : faultBit c ≠ 0#8 := by cases c <;> decide

/-- No cause sets bit 0; R26. -/
@[simp] theorem faultBit_bit_zero (c : Cause) : (faultBit c).getLsbD 0 = false := by cases c <;> decide

theorem or_faultBit_ne_zero (c : Cause) (x : Word8) : x ||| faultBit c ≠ 0#8 := by
  intro h
  simp at h

@[simp] theorem takeCreate_ready (d : Driver) : d.takeCreate.2.ready = d.ready := by
  unfold Driver.takeCreate; split <;> rfl

@[simp] theorem takeSend_ready (d : Driver) : d.takeSend.2.ready = d.ready := by
  unfold Driver.takeSend; split <;> rfl

@[simp] theorem takePoll_ready (d : Driver) : d.takePoll.2.ready = d.ready := by
  unfold Driver.takePoll; split <;> rfl

theorem inBuild_unbuilt {s : State} (h : s.inBuild = true) : s.wstate = .unbuilt := by
  simp [State.inBuild] at h; exact h.2

/-- What a command, a turn of the poll loop, or an input other than a reset can do from `s` to `t`. -/
structure Advance (s t : State) : Prop where
  params : t.params = s.params
  code : t.code = s.code
  carrier : t.carrier = s.carrier
  /-- Records are added at the end, and only while Unbuilt. -/
  timeline : ∃ ps, t.timeline = s.timeline ++ ps ∧ (s.wstate ≠ .unbuilt → ps = []) ∧
    (Memory.wf s.params.tlCap s.timeline = true → Memory.wf s.params.tlCap (s.timeline ++ ps) = true)
  /-- The fault registers stay, or one fault is recorded. -/
  faults : (t.fault = s.fault ∧ t.finfo = s.finfo) ∨
    ∃ r : Raise, t.fault = s.fault ||| faultBit r.cause ∧ t.finfo = some r.info
  /-- Events are added to the history, none of them a release. -/
  history : ∃ es, t.history = s.history ++ es ∧ ∀ id, Event.release id ∉ es
  /-- The lifecycle state and the id stay, or an Unbuilt instance becomes Failed, or it becomes Built with an id. -/
  lifecycle : (t.wstate = s.wstate ∧ t.waveId = s.waveId) ∨
    (s.wstate = .unbuilt ∧ t.wstate = .failed ∧ t.waveId = s.waveId ∧ t.fault ≠ 0#8) ∨
    (s.wstate = .unbuilt ∧ t.wstate = .built ∧ s.issuer = .host ∧ ∃ id, t.waveId = some id ∧ 0 ≤ id.toInt ∧
      Event.waveCreate t.timeline id ∈ t.history ∧ t.timeline ≠ [])
  ready : s.driver.ready = true → t.driver.ready = true

theorem advance_of_appended {s u t : State} {b : Bool} (hb : b = true → s.wstate = .unbuilt) (hu : Appended s u)
    (h : t = u.respondOk ∨ ∃ r, r.cause ≠ .validation ∧ t = u.raise b r) : Advance s t := by
  obtain ⟨ps, rfl, h1, h2⟩ := hu
  rcases h with rfl | ⟨r, -, rfl⟩
  · constructor <;> simp_all
  · constructor <;> simp_all
    · exact .inr ⟨r, rfl, rfl⟩
    · cases b <;> simp_all

/-- Every instruction that answers a next state. -/
theorem exec_advance {i : Instr} {s t : State} (h : exec i s = .next t) : Advance s t := by
  rcases exec_cases h with rfl | ⟨-, u, hu, ht⟩ | ⟨-, -, hw, rfl⟩ | ⟨-, hi, hw, -, hb⟩ | ⟨-, -, hw, rfl⟩ |
    ⟨-, -, hw, id, u, hid, rfl, ht⟩
  · exact advance_of_appended inBuild_unbuilt (appended_refl s) (.inr ⟨_, by simp, rfl⟩)
  · exact advance_of_appended inBuild_unbuilt hu ht
  · exact advance_of_appended (b := false) (by simp) (appended_refl s) (.inr ⟨_, by simp, rfl⟩)
  · obtain ⟨u, hu, ⟨r, hr, rfl⟩ | ⟨hne, v, rfl, ⟨hid, rfl⟩ | ⟨hid, rfl⟩⟩⟩ := build_cases hb
    · exact advance_of_appended (fun _ => hw) hu (.inr ⟨r, hr, rfl⟩)
    · obtain ⟨ps, rfl, h1, h2⟩ := hu
      constructor <;> simp_all
      exact .inr ⟨⟨_, _⟩, rfl, rfl⟩
    · obtain ⟨ps, rfl, h1, h2⟩ := hu
      constructor <;> simp_all
  · exact advance_of_appended (b := false) (by simp) (appended_refl s) (.inr ⟨_, by simp, rfl⟩)
  · rcases ht with ⟨hs, rfl⟩ | ⟨hs, rfl⟩
    · constructor <;> simp_all
    · constructor <;> simp_all
      exact .inr ⟨⟨_, _⟩, rfl, rfl⟩

/-- Every command word that is answered. -/
theorem runWord_advance {w : CommandWord} {s t : State} (h : runWord w s = .next t) : Advance s t := by
  unfold runWord at h
  split at h
  · exact exec_advance h
  · simp only [Host.Outcome.next.injEq] at h
    exact advance_of_appended inBuild_unbuilt (appended_refl s) (.inr ⟨_, by simp, h.symm⟩)

/-- Every turn of the poll loop. -/
theorem pollOnce_advance (s : State) : Advance s (pollOnce s) := by
  have := takePoll_ready s.driver
  unfold pollOnce
  cases h : s.driver.takePoll.1 <;> constructor <;> simp_all
  exact .inr ⟨⟨.transmission, _⟩, rfl, rfl⟩

/-- Every step that takes no reset: a turn of the poll loop, nothing, a primitive of the driver's initialisation, or a
command word. -/
theorem step_without_reset {s t : State} (hr : takesReset s = false) (h : step s = .next t) :
    (s.polling = true ∧ t = pollOnce s) ∨
    (s.polling = false ∧ (t = s ∨
      (∃ d e rest, t = { s with inputs := rest, driver := d }.log e ∧ (∀ id, e ≠ .release id) ∧
        (s.driver.ready = true → d.ready = true)) ∨
      (∃ a w rest, s.inputs = .command a w :: rest ∧ runWord w { s with inputs := rest, issuer := a } = .next t))) := by
  rcases step_cases h with ⟨hp, rfl⟩ | ⟨hp, -, rfl⟩ | ⟨x, rest, hp, hi, ht⟩
  · exact .inl ⟨hp, rfl⟩
  · exact .inr ⟨hp, .inl rfl⟩
  · refine .inr ⟨hp, .inr ?_⟩
    cases x with
    | configPin =>
      simp only [takeInput, Host.Outcome.next.injEq] at ht
      exact .inl ⟨_, _, rest, ht.symm, by simp, by simp [Driver.ready]⟩
    | clearBuffer =>
      simp only [takeInput, Host.Outcome.next.injEq] at ht
      exact .inl ⟨_, _, rest, ht.symm, by simp, by simp +contextual [Driver.ready]⟩
    | reset x => simp [takesReset, hp, hi] at hr
    | command a w => exact .inr ⟨a, w, rest, hi, ht⟩

/-- A step that takes a reset. -/
theorem step_reset {s : State} (hr : takesReset s = true) :
    ∃ x rest, s.polling = false ∧ s.inputs = .reset x :: rest ∧
      step s = .next ({ s with inputs := rest }.resetWith x) := by
  simp only [takesReset, Bool.and_eq_true, Bool.not_eq_true'] at hr
  obtain ⟨hp, hr⟩ := hr
  split at hr
  · rename_i x rest hi
    exact ⟨x, rest, hp, hi, by simp [step, advance, hp, hi, takeInput]⟩
  · cases hr

/-- Every step that takes no reset is an advance from `s`, with the issuer the step named. -/
theorem step_advance {s t : State} (hr : takesReset s = false) (h : step s = .next t) :
    ∃ a, Advance { s with issuer := a } t := by
  rcases step_without_reset hr h with ⟨hp, rfl⟩ | ⟨hp, rfl | ⟨d, e, rest, rfl, he, hd⟩ | ⟨a, w, rest, hi, hw⟩⟩
  · exact ⟨s.issuer, pollOnce_advance s⟩
  · exact ⟨t.issuer, by constructor <;> simp⟩
  · refine ⟨s.issuer, ?_⟩
    constructor <;> simp_all
    exact fun id h => he id h.symm
  · obtain ⟨h1, h2, h3, h4, h5, h6, h7, h8⟩ := runWord_advance hw
    exact ⟨a, h1, h2, h3, h4, h5, h6, h7, h8⟩

/-- A run is a shorter run and then the rest. -/
theorem run_add {a b : Nat} {s t : State} (h : core.run a s = .next t) : core.run (a + b) s = core.run b t := by
  induction a generalizing s with
  | zero => cases h; rw [Nat.zero_add]
  | succ a ih =>
    rw [Nat.succ_add]
    simp only [Host.Core.run] at h ⊢
    cases hs : core.step s with
    | next u => rw [hs] at h; exact ih h
    | fault r => rw [hs] at h; cases h
    | refused r => rw [hs] at h; cases h

end Sys2Proof.Machine
end

