-- ==== Sys2Proof/Laws/Frame.lean ====
section
/-! SUPPORT. Each append operation, and the whole assembly of BUILD, is one run of appends of the records Safety.lean
names: the sequence of operations and the list of records say the same. -/

namespace Sys2Proof.Machine

theorem burstRecords_eq_cycleRecords (pin : Fin 32) (c : Carrier) (n : Nat) :
    burstRecords pin c n = cycleRecords pin c n := by
  induction n with
  | zero => rfl
  | succ n ih =>
    rw [burstRecords, ih, cycleRecords, cycleRecords, show 2 * (n + 1) = 2 * n + 1 + 1 by omega,
      List.range_succ_eq_map, List.range_succ_eq_map]
    simp only [assertRecord, clearRecord, pinMask, List.map_cons, List.map_map, Function.comp_def]
    refine congrArg₂ _ rfl (congrArg₂ _ rfl (List.map_congr_left fun a _ => ?_))
    simp [show (a + 1 + 1) % 2 = a % 2 by omega]

@[simp] theorem cycleRecords_length (pin : Fin 32) (c : Carrier) (n : Nat) : (cycleRecords pin c n).length = 2 * n := by
  simp [cycleRecords]

theorem appendCarrier_eq_burstOf {s : State} {c : Carrier} (hc : s.carrier = some c) (d : Nat) :
    appendCarrier d s = appendAll (burstOf s.params c d) s := by
  simp [appendCarrier_eq hc, burstRecords_eq_cycleRecords, burstOf, numCycles]

/-- What follows a run of appends sees the state with a longer timeline, and nothing else changed. -/
theorem appendAll_andThen_congr {ps : List Pulse} {s : State} {f g : State → Effect}
    (h : ∀ m, f { s with timeline := m } = g { s with timeline := m }) :
    (appendAll ps s).andThen f = (appendAll ps s).andThen g := by
  unfold appendAll
  split <;> simp [Effect.andThen, h]

/-- A run of appends, then an operation that is one too. -/
theorem appendAll_andThen_eq {ps qs : List Pulse} {s : State} {f : State → Effect}
    (h : ∀ m, f { s with timeline := m } = appendAll qs { s with timeline := m }) :
    (appendAll ps s).andThen f = appendAll (ps ++ qs) s := by
  rw [appendAll_andThen_congr h, appendAll_andThen]

theorem appendLogicalBit_eq {s : State} {c : Carrier} (hc : s.carrier = some c) (e : BitEncoding) :
    appendLogicalBit e s =
      appendAll
        (if e.burstFirst then burstOf s.params c e.burstDuration ++ [gapRecord (durationField e.gapDuration)]
        else [gapRecord (durationField e.gapDuration)] ++ burstOf s.params c e.burstDuration) s := by
  unfold appendLogicalBit
  split
  · rw [appendCarrier_eq_burstOf hc]
    exact appendAll_andThen_eq fun m => rfl
  · unfold appendGap
    exact appendAll_andThen_eq fun m => appendCarrier_eq_burstOf (s := { s with timeline := m }) hc _

theorem appendBit_eq {s : State} {c : Carrier} (hc : s.carrier = some c) (b : Bool) :
    appendBit b s = appendAll (bitRecords s.params c b) s :=
  appendLogicalBit_eq hc _

theorem runPayload_eq {s : State} {c : Carrier} (hc : s.carrier = some c) (bits : List Bool) :
    runPayload (bits.map .ok) s = appendAll (bits.flatMap (bitRecords s.params c)) s := by
  induction bits generalizing s with
  | nil => simp [runPayload]
  | cons b bits ih =>
    simp only [List.map_cons, runPayload, List.flatMap_cons, appendBit_eq hc]
    exact appendAll_andThen_eq fun m => ih (s := { s with timeline := m }) hc

/-- A payload that begins with some bits appends their records, then goes on with the rest; R88. -/
theorem runPayload_append {s : State} {c : Carrier} (hc : s.carrier = some c) (bits : List Bool)
    (rest : List (Except Word8 Bool)) :
    runPayload (bits.map .ok ++ rest) s =
      (appendAll (bits.flatMap (bitRecords s.params c)) s).andThen (runPayload rest) := by
  induction bits generalizing s with
  | nil => simp [Effect.andThen]
  | cons b bits ih =>
    simp only [List.map_cons, List.cons_append, runPayload, List.flatMap_cons, appendBit_eq hc]
    rw [appendAll_andThen_congr
      (g := fun u => (appendAll (bits.flatMap (bitRecords s.params c)) u).andThen (runPayload rest))
      (fun m => ih (s := { s with timeline := m }) hc), ← andThen_assoc, appendAll_andThen]

theorem appendTrailing_eq {s : State} {c : Carrier} (hc : s.carrier = some c) :
    appendTrailing s = appendAll (trailingRecords s.params c) s := by
  cases h : s.params.profile.trailingPulse with
  | some d => simpa [appendTrailing, trailingRecords, h] using appendCarrier_eq_burstOf hc d
  | none => simp [appendTrailing, trailingRecords, h]

/-- The assembly of BUILD, up to the payload. -/
theorem opening_eq {s : State} {c : Carrier} (hc : s.carrier = some c) :
    (appendCarrier s.params.profile.leadingPulse s).andThen (appendGap (durationField s.params.profile.leadingGap)) =
      appendAll (openingRecords s.params c []) s := by
  rw [appendCarrier_eq_burstOf hc]
  simp only [openingRecords, List.flatMap_nil, List.append_nil]
  exact appendAll_andThen_eq fun m => rfl

theorem openingRecords_append (p : Params) (c : Carrier) (bits : List Bool) :
    openingRecords p c [] ++ bits.flatMap (bitRecords p c) = openingRecords p c bits := by
  simp [openingRecords]

/-- The assembly of BUILD with a conforming encoder; R81. -/
theorem assemble_eq {s : State} {c : Carrier} {bits : List Bool} (hc : s.carrier = some c)
    (hb : encoderCommands s.params.encoder s.code = bits.map .ok) :
    assemble s = appendAll (frameRecords s.params c bits) s := by
  unfold assemble frameRecords
  rw [opening_eq hc, ← openingRecords_append _ _ bits]
  rw [appendAll_andThen_eq (qs := bits.flatMap (bitRecords s.params c))]
  · exact appendAll_andThen_eq fun m => appendTrailing_eq (s := { s with timeline := m }) hc
  · intro m
    unfold appendPayload
    rw [show encoderCommands _ _ = bits.map .ok from hb]
    exact runPayload_eq (s := { s with timeline := m }) hc bits

/-- The assembly of BUILD with an encoder whose commands begin with some bits; R81, R87. -/
theorem assemble_append {s : State} {c : Carrier} {bits : List Bool} {rest : List (Except Word8 Bool)}
    (hc : s.carrier = some c) (hb : encoderCommands s.params.encoder s.code = bits.map .ok ++ rest) :
    assemble s =
      ((appendAll (openingRecords s.params c bits) s).andThen (runPayload rest)).andThen appendTrailing := by
  unfold assemble
  rw [opening_eq hc, ← openingRecords_append _ _ bits, ← appendAll_andThen]
  congr 1
  rw [andThen_assoc]
  refine appendAll_andThen_congr fun m => ?_
  unfold appendPayload
  rw [show encoderCommands _ _ = _ from hb]
  exact runPayload_append (s := { s with timeline := m }) hc bits rest

/-- The words of a plugged encoder are those of the first row for the code; R87. -/
theorem pluggedWords_eq_find (code : Word32) (rows : List (Word32 × List CommandWord)) :
    pluggedWords code rows = ((rows.find? (fun r => r.1 = code)).map (·.2)).getD [] := by
  induction rows with
  | nil => rfl
  | cons r rows ih =>
    obtain ⟨c, words⟩ := r
    by_cases h : c = code <;> simp [pluggedWords, h, ih]

/-- Every list of encoder commands is some bits, then nothing or a command the encoder may not issue. -/
theorem encoderCommands_cases (cs : List (Except Word8 Bool)) :
    ∃ bits : List Bool, cs = bits.map .ok ∨ ∃ op later, cs = bits.map .ok ++ .error op :: later := by
  induction cs with
  | nil => exact ⟨[], .inl rfl⟩
  | cons x cs ih =>
    cases x with
    | error op => exact ⟨[], .inr ⟨op, cs, rfl⟩⟩
    | ok b =>
      obtain ⟨bits, rfl | ⟨op, later, rfl⟩⟩ := ih
      · exact ⟨b :: bits, .inl rfl⟩
      · exact ⟨b :: bits, .inr ⟨op, later, rfl⟩⟩

/-- An Unbuilt instance with a carrier never stops in an append. -/
theorem appendAll_total {s : State} (hw : s.wstate = .unbuilt) (ps : List Pulse) :
    (∃ m, appendAll ps s = .done { s with timeline := m }) ∨
      ∃ m, appendAll ps s = .raised { cause := .tlOverflow, info := 0#32 } { s with timeline := m } := by
  unfold appendAll
  rcases appendRecords_cases s.params.tlCap (s.wstate == .unbuilt) ps s.timeline with
    ⟨h, -⟩ | ⟨qs, q, rest, rfl, h, -⟩ | ⟨-, h, -⟩
  · left; exact ⟨_, by rw [h]⟩
  · right; exact ⟨_, by rw [h]⟩
  · simp [hw] at h

end Sys2Proof.Machine
end

