-- ==== Sys2Proof/Laws/PerInstr.lean ====
section
/-! SUPPORT. For every instruction: its encoded word spells an operation, its `op` field is the one R54 gives, and the
row of the opcode table that takes the word is the row of its mnemonic (R62). -/

namespace Sys2Proof.Laws.EncodedWord

/-- The mnemonic of R54. -/
def mnemonicOf : Instr → String
  | .appendCarrier _ => "APPEND_CARRIER"
  | .appendGap _ => "APPEND_GAP"
  | .appendBit _ => "APPEND_BIT"
  | .payload => "PAYLOAD"
  | .build => "BUILD"
  | .send => "SEND"

/-- What is said of each instruction. -/
def Statement (i : Instr) : Prop :=
  wordWellFormed (encode i) = true ∧ opField (encode i) = i.opcode ∧ argField (encode i) = i.argument ∧
    ∀ r ∈ opcodeTable, r.takes (encode i) = true → r.mnemonic = mnemonicOf i

/-- The fields of a word put together from its fields; R53. -/
theorem opField_append (op : Word8) (arg : Word32) : opField (op ++ arg) = op := by
  unfold opField
  ext i hi
  rw [BitVec.getElem_extractLsb', BitVec.getLsbD_append]
  simp [hi]

theorem argField_append (op : Word8) (arg : Word32) : argField (op ++ arg) = arg := by
  unfold argField
  ext i hi
  rw [BitVec.getElem_extractLsb', BitVec.getLsbD_append]
  simp [hi]

/-- A row that looks at the `op` field only takes a word by that field. -/
theorem masked_op (op : Word8) (arg : Word32) : (op ++ arg) &&& 0xFF00000000#40 = op ++ 0#32 := by
  have h : 0xFF00000000#40 = (0xFF#8 ++ 0#32 : BitVec 40) := by decide
  rw [h]
  rw [BitVec.and_append, BitVec.and_zero, show (0xFF#8 : BitVec 8) = BitVec.allOnes 8 by decide,
    BitVec.and_allOnes]

theorem operand_statement (op : Word8) (arg : Word32) (hop : op = 1#8 ∨ op = 2#8) :
    wordWellFormed (op ++ arg) = true ∧
      ∀ r ∈ opcodeTable, r.takes (op ++ arg) = true → r.pattern &&& 0xFF00000000#40 = op ++ 0#32 := by
  constructor
  · rcases hop with rfl | rfl <;>
      simp [wordWellFormed, opcodeTable, OpcodeRow.takes, masked_op]
  · intro r hr ht
    simp only [OpcodeRow.takes, beq_iff_eq] at ht
    rw [← masked_op op arg, ← ht, BitVec.and_assoc]
    congr 1
    simp only [opcodeTable, List.mem_cons, List.not_mem_nil, or_false] at hr
    rcases hr with rfl | rfl | rfl | rfl | rfl | rfl <;> decide

theorem appendCarrier (dur : Word32) : Statement (.appendCarrier dur) := by
  have h := operand_statement 1#8 dur (.inl rfl)
  refine ⟨h.1, opField_append .., argField_append .., fun r hr ht => ?_⟩
  have hp := h.2 r hr ht
  simp only [opcodeTable, List.mem_cons, List.not_mem_nil, or_false] at hr
  rcases hr with rfl | rfl | rfl | rfl | rfl | rfl <;> first | rfl | exact absurd hp (by decide)

theorem appendGap (dur : Word32) : Statement (.appendGap dur) := by
  have h := operand_statement 2#8 dur (.inr rfl)
  refine ⟨h.1, opField_append .., argField_append .., fun r hr ht => ?_⟩
  have hp := h.2 r hr ht
  simp only [opcodeTable, List.mem_cons, List.not_mem_nil, or_false] at hr
  rcases hr with rfl | rfl | rfl | rfl | rfl | rfl <;> first | rfl | exact absurd hp (by decide)

theorem appendBit (b : Bool) : Statement (.appendBit b) := by
  unfold Statement; revert b; decide

theorem payload : Statement .payload := by unfold Statement; decide

theorem build : Statement .build := by unfold Statement; decide

theorem send : Statement .send := by unfold Statement; decide

end Sys2Proof.Laws.EncodedWord
end

