-- ==== Sys2Proof/Laws/Profile.lean ====
section
/-! SUPPORT. What the carrier derivation can give: rounding as a fact about naturals and rationals, the bound on the on
duration, and the derivation's one way to succeed. -/

namespace Sys2Proof.Machine

/-- A float of more significand bits holds at least as many numbers. -/
theorem floatHolds_mono {p q : Nat} (h : p ≤ q) {x : Rat} (hx : floatHolds p x = true) : floatHolds q x = true := by
  simp only [floatHolds, Bool.and_eq_true, decide_eq_true_eq] at hx ⊢
  exact ⟨hx.1, lt_of_lt_of_le hx.2 (Nat.pow_le_pow_right (by norm_num) h)⟩

/-- `round` is the floor of R13, no natural number being lost. -/
theorem roundHalfAway_eq_floor {x : Rat} (hx : 0 ≤ x) : ((roundHalfAway x : Nat) : Int) = (x + 1 / 2).floor := by
  have : (0 : Int) ≤ (x + 1 / 2).floor := by
    rw [Rat.le_floor_iff]; push_cast; linarith
  unfold roundHalfAway; omega

/-- `round` gives a nearest natural number, the upper one at a tie; R13. -/
theorem roundHalfAway_nearest {x : Rat} (hx : 0 ≤ x) :
    (roundHalfAway x : Rat) - 1 / 2 ≤ x ∧ x < (roundHalfAway x : Rat) + 1 / 2 := by
  have h := roundHalfAway_eq_floor hx
  have a := (Rat.le_floor_iff (a := x + 1 / 2) (x := (roundHalfAway x : Int))).1 h.le
  have b := (Rat.floor_lt_iff (a := x + 1 / 2) (x := (roundHalfAway x : Int) + 1)).1 (by omega)
  push_cast at a b
  constructor <;> linarith

/-- The rounded product with a duty cycle below 1 is at most the period; R68. -/
theorem roundHalfAway_mul_le (p : Nat) {d : Rat} (h0 : 0 < d) (h1 : d < 1) : roundHalfAway ((p : Rat) * d) ≤ p := by
  have hn := (roundHalfAway_nearest (x := (p : Rat) * d) (by positivity)).1
  have hd : (p : Rat) * d ≤ p := by nlinarith [show (0 : Rat) ≤ p from by positivity]
  have : (roundHalfAway ((p : Rat) * d) : Rat) < p + 1 := by linarith
  exact Nat.lt_succ_iff.1 (by exact_mod_cast this)

/-- The on duration of an admissible arithmetic is at most its period; R68, R70. -/
theorem derivedOn_le {n : Numerics} {prof : Profile} (ha : n.admissible prof = true) (h0 : 0 < prof.dutyCycle)
    (h1 : prof.dutyCycle < 1) :
    derivedOn n (derivedPeriod n prof.frequencyHz) prof.dutyCycle ≤ derivedPeriod n prof.frequencyHz := by
  cases n with
  | exact => exact roundHalfAway_mul_le _ h0 h1
  | given => simp only [Numerics.admissible, Bool.and_eq_true, decide_eq_true_eq] at ha; exact ha.1.2

/-- Everything a derivation that succeeds says of the profile and of the carrier; R66. -/
theorem deriveCarrier_ok {n : Numerics} {prof : Profile} {c : Carrier} (h : deriveCarrier n prof = .ok c) :
    0 < prof.frequencyHz ∧ 0 < prof.dutyCycle ∧ prof.dutyCycle < 1 ∧ derivedPeriod n prof.frequencyHz ≠ 0 ∧
      derivedPeriod n prof.frequencyHz < 2 ^ 32 ∧ prof.durationsFit = true ∧
      c =
        { cyclePeriod := BitVec.ofNat 32 (derivedPeriod n prof.frequencyHz)
          onDuration := BitVec.ofNat 32 (derivedOn n (derivedPeriod n prof.frequencyHz) prof.dutyCycle)
          offDuration := BitVec.ofNat 32
            (derivedPeriod n prof.frequencyHz - derivedOn n (derivedPeriod n prof.frequencyHz) prof.dutyCycle) } := by
  unfold deriveCarrier at h
  split_ifs at h with h1 h2
  simp only at h
  split_ifs at h with h3 h4
  simp only [durationLimit, not_or, not_le, Bool.not_eq_false, Except.ok.injEq] at h1 h2 h3 h4 h
  exact ⟨h1, h2.1, h2.2, h3, h4.1, h4.2, h.symm⟩

end Sys2Proof.Machine
end

