-- ==== Sys2Proof/Laws/Raises.lean ====
section
/-! SUPPORT. Which faults the append operations, PAYLOAD and BUILD's assembly can raise, with their information words:
`TlOverflow(0)` at a finite capacity, and the encoder's first forbidden command; R98, R105 (4). -/

namespace Sys2Proof.Machine

/-- Whatever fault ends the operation is one of `P`. -/
def Effect.RaisesOnly (P : Raise → Prop) (e : Effect) : Prop :=
  match e with
  | .raised r _ => P r
  | _ => True

/-- An append that does not fit; R73. -/
def OverflowRaise (cap : Option Nat) (r : Raise) : Prop := r = { cause := .tlOverflow, info := 0#32 } ∧ cap ≠ none

/-- An append that does not fit, or the encoder's first forbidden command; R105 (4). -/
def AssemblyRaise (s : State) (r : Raise) : Prop :=
  OverflowRaise s.params.tlCap r ∨
    ∃ (bits : List Bool) (op : Word8) (later : List (Except Word8 Bool)),
      encoderCommands s.params.encoder s.code = bits.map .ok ++ .error op :: later ∧
        r = { cause := .illegalCmd, info := op.setWidth 32 }

theorem raisesOnly_mono {P Q : Raise → Prop} {e : Effect} (h : ∀ r, P r → Q r) (he : e.RaisesOnly P) :
    e.RaisesOnly Q := by
  cases e <;> first | trivial | exact h _ he

theorem raisesOnly_andThen {P : Raise → Prop} {e : Effect} {f : State → Effect} (he : e.RaisesOnly P)
    (hf : ∀ u, e = .done u → (f u).RaisesOnly P) : (e.andThen f).RaisesOnly P := by
  cases e with
  | done u => exact hf u rfl
  | _ => exact he

/-- What an operation that only adds records leaves as it was, as far as the next one's faults depend on it. -/
theorem extends_done_frame {s u : State} {e : Effect} (h : e.Extends s) (he : e = .done u) :
    u.params = s.params ∧ u.code = s.code := by
  subst he; obtain ⟨ps, rfl, -⟩ := h; exact ⟨rfl, rfl⟩

/-- With no capacity bound nothing overflows; R7. -/
theorem appendRecords_unbounded (w : Bool) (ps : List Pulse) (m : Memory) :
    (appendRecords none w ps m).2 ≠ .overflow := by
  induction ps generalizing m with
  | nil => simp [appendRecords]
  | cons p ps ih =>
    simp only [appendRecords, hasRoom, if_true]
    split
    · exact ih _
    · simp

theorem appendAll_raises (ps : List Pulse) (s : State) :
    (appendAll ps s).RaisesOnly (OverflowRaise s.params.tlCap) := by
  unfold appendAll
  cases hc : s.params.tlCap with
  | none =>
    have := appendRecords_unbounded (s.wstate == .unbuilt) ps s.timeline
    split <;> simp_all [Effect.RaisesOnly]
  | some n => split <;> simp [Effect.RaisesOnly, OverflowRaise]

theorem appendCarrier_raises (d : Nat) (s : State) : (appendCarrier d s).RaisesOnly (OverflowRaise s.params.tlCap) := by
  unfold appendCarrier
  split
  · trivial
  · exact appendAll_raises _ _

theorem appendBit_raises (b : Bool) (s : State) : (appendBit b s).RaisesOnly (OverflowRaise s.params.tlCap) := by
  unfold appendBit appendLogicalBit
  split
  · refine raisesOnly_andThen (appendCarrier_raises _ _) fun u hu => ?_
    rw [← (extends_done_frame (appendCarrier_extends ..) hu).1]
    exact appendAll_raises _ _
  · refine raisesOnly_andThen (appendAll_raises _ _) fun u hu => ?_
    rw [← (extends_done_frame (appendGap_extends ..) hu).1]
    exact appendCarrier_raises _ _

theorem runPayload_raises {cs : List (Except Word8 Bool)} {before : List Bool} {s : State}
    (h : encoderCommands s.params.encoder s.code = before.map .ok ++ cs) :
    (runPayload cs s).RaisesOnly (AssemblyRaise s) := by
  induction cs generalizing before s with
  | nil => trivial
  | cons x cs ih =>
    cases x with
    | error op => exact .inr ⟨before, op, cs, h, rfl⟩
    | ok b =>
      refine raisesOnly_andThen (raisesOnly_mono (fun _ => .inl) (appendBit_raises b s)) fun u hu => ?_
      obtain ⟨hp, hc⟩ := extends_done_frame (appendBit_extends ..) hu
      exact raisesOnly_mono (fun r hr => by simpa only [AssemblyRaise, hp, hc] using hr)
        (ih (before := before ++ [b]) (s := u) (by rw [hp, hc, h]; simp))

theorem appendPayload_raises (s : State) : (appendPayload s).RaisesOnly (AssemblyRaise s) :=
  runPayload_raises (before := []) rfl

/-- The faults of BUILD's assembly; R80, R105 (4). -/
theorem assemble_raises (s : State) : (assemble s).RaisesOnly (AssemblyRaise s) := by
  have opening := extends_andThen (appendCarrier_extends s.params.profile.leadingPulse s)
    fun u => appendGap_extends (durationField s.params.profile.leadingGap) u
  unfold assemble
  refine raisesOnly_andThen (raisesOnly_andThen (raisesOnly_andThen
    (raisesOnly_mono (fun _ => .inl) (appendCarrier_raises _ s)) fun u hu => ?_) fun u hu => ?_) fun u hu => ?_
  · have hp := (extends_done_frame (appendCarrier_extends ..) hu).1
    exact raisesOnly_mono (fun r hr => .inl (by rw [← hp]; exact hr)) (appendAll_raises _ u)
  · obtain ⟨hp, hc⟩ := extends_done_frame opening hu
    exact raisesOnly_mono (fun r hr => by simpa only [AssemblyRaise, hp, hc] using hr) (appendPayload_raises u)
  · have hp := (extends_done_frame (extends_andThen opening fun u => appendPayload_extends u) hu).1
    unfold appendTrailing
    split
    · exact raisesOnly_mono (fun r hr => .inl (by rw [← hp]; exact hr)) (appendCarrier_raises _ u)
    · trivial

end Sys2Proof.Machine
end

