-- ==== Sys2Proof/Tests/Slice0.lean ====
section
/-! SUPPORT. Tests against the vectors of 95_test_vectors.md (named V1 to V10 and programs A to G there), the check of
each well-formedness rule on an ill-formed term, and for each statement with hypotheses a state that meets them. -/

namespace Sys2Proof.Tests

open Sys2Proof.Machine

/-- The next state of a result, where there is one. -/
def after (r : Result) : Option State :=
  match r with
  | .next s => some s
  | _ => none

/-- The carrier of the NEC profile; R71. -/
def nec : Carrier := ⟨26#32, 13#32, 13#32⟩

/-- The profile of program D. -/
def profileD : Profile :=
  { frequencyHz := 40000, dutyCycle := 1 / 2, leadingPulse := 60, leadingGap := 0,
    logicalOne := { burstDuration := 100, gapDuration := 50, burstFirst := false },
    logicalZero := { burstDuration := 20, gapDuration := 30, burstFirst := true },
    trailingPulse := none }

/-- The instance of program D after its reset: a two-bit encoder, and a driver that answers id 4. -/
def instanceD : State :=
  { State.reset with
    params := { defaultParams with profile := profileD,
                                   encoder := .plugged [(0#32, [0x0300000001#40, 0x0300000000#40])] },
    carrier := some ⟨25#32, 13#32, 12#32⟩,
    driver := { State.reset.driver with creates := [4#32] } }

/-- The instance of program D with an encoder that issues a gap between its two bits, and room for `cap` records. -/
def nonconformingD (a : Issuer) (cap : Option Nat) : State :=
  { instanceD with
    issuer := a
    params := { instanceD.params with
      tlCap := cap
      encoder := .plugged [(0#32, [0x0300000001#40, 0x0200000005#40, 0x0300000000#40])] } }

/-- A NEC instance whose command is issued by an agent, with room for `cap` records. -/
def issuedBy (a : Issuer) (cap : Option Nat) : State :=
  { State.reset with issuer := a, params := { defaultParams with tlCap := cap } }

/-- A Built instance with id 5 whose driver answers a request and polls so; table V8. -/
def built (sends : List SendStatus) (polls : List BusyAnswer) : State :=
  { State.reset with wstate := .built, waveId := some 5#32, timeline := [gapRecord 1#32],
                     history := [.waveCreate [gapRecord 1#32] 5#32],
                     driver := { State.reset.driver with sends := sends, polls := polls } }

/-- A state with a list of inputs. -/
def fed (xs : List Input) (s : State) : State := { s with inputs := xs }

/-! ## Well-formedness: each check refuses an ill-formed term -/

theorem test_reserved_op_zero : wordWellFormed 0x0000000000#40 = false := by decide
theorem test_reserved_op_seven : wordWellFormed 0x0700000000#40 = false := by decide
theorem test_reserved_bit_of_append_bit : wordWellFormed 0x0300000002#40 = false := by decide
theorem test_reserved_argument_of_payload : wordWellFormed 0x0400000001#40 = false := by decide
theorem test_reserved_argument_of_build : wordWellFormed 0x0580000000#40 = false := by decide
theorem test_reserved_argument_of_send : wordWellFormed 0x0600000001#40 = false := by decide
theorem test_profile_frequency : ({ profileD with frequencyHz := 0 } : Profile).wellFormed = false := by decide +kernel
theorem test_profile_duty_zero : ({ profileD with dutyCycle := 0 } : Profile).wellFormed = false := by decide +kernel
theorem test_profile_duty_one : ({ profileD with dutyCycle := 1 } : Profile).wellFormed = false := by decide +kernel
theorem test_profile_width : ({ profileD with leadingGap := 4294967296 } : Profile).durationsFit = false := by decide
theorem test_profile_trailing_width :
    ({ profileD with trailingPulse := some 4294967296 } : Profile).durationsFit = false := by decide
theorem test_profile_of_program_d : profileD.wellFormed = true := by decide +kernel
theorem test_numerics_on_above_period : (Numerics.given 53 25 26).admissible profileD = false := by decide +kernel
theorem test_numerics_precision : (Numerics.given 11 26 13).admissible necProfile = false := by decide +kernel
theorem test_numerics_period_not_nearest : (Numerics.given 53 40 20).admissible necProfile = false := by decide +kernel
theorem test_numerics_on_not_nearest : (Numerics.given 53 26 7).admissible necProfile = false := by decide +kernel
/-- 38000 is exact in 12 significand bits and not in 11; 1/10 is exact in none. -/
theorem test_float_holds : floatHolds 12 38000 = true ∧ floatHolds 11 38000 = false ∧ floatHolds 53 (1 / 2) = true ∧
    floatHolds 53 (1 / 10) = false := by decide +kernel
/-- The tie of R67: at 2 MHz the period may be 1 or, under ties-to-even, 0. -/
theorem test_numerics_tie :
    let p := { necProfile with frequencyHz := 2000000 }
    (Numerics.given 53 0 0).admissible p = true ∧ (Numerics.given 53 1 1).admissible p = true ∧
      (Numerics.given 53 2 1).admissible p = false := by decide +kernel

/-! ## Decoding: table V7, words written from R53 and R54 -/

theorem test_decode_append_carrier : decode 0x0100002328#40 = .ok (.appendCarrier 9000#32) := rfl
theorem test_decode_append_gap : decode 0x0200001194#40 = .ok (.appendGap 4500#32) := rfl
theorem test_decode_append_bit_one : decode 0x0300000001#40 = .ok (.appendBit true) := rfl
theorem test_decode_append_bit_zero : decode 0x0300000000#40 = .ok (.appendBit false) := rfl
theorem test_decode_payload : decode 0x0400000000#40 = .ok .payload := rfl
theorem test_decode_build : decode 0x0500000000#40 = .ok .build := rfl
theorem test_decode_send : decode 0x0600000000#40 = .ok .send := rfl
theorem test_decode_reserved_bit : decode 0x0300000002#40 = .error (.reservedArg 3#8) := rfl
theorem test_decode_reserved_op : decode 0xFFFFFFFFFF#40 = .error (.reservedOp 255#8) := rfl
theorem test_decode_table_word : decodeTableWord 40 0x0100000232 = some (.appendCarrier 562#32) := by decide
theorem test_assembly : (Instr.appendCarrier 9000#32).assembly = "APPEND_CARRIER 9000" := by decide +kernel

/-! ## The carrier: tables V1, V2 -/

/-- The three figures of a derivation, or the sub-reason. -/
def derived (f d : Rat) : Nat × Nat × Nat :=
  match deriveCarrier .exact { necProfile with frequencyHz := f, dutyCycle := d } with
  | .ok c => (c.cyclePeriod.toNat, c.onDuration.toNat, c.offDuration.toNat)
  | .error r => (0, 0, r)

theorem test_derive_nec : derived 38000 (1 / 2) = (26, 13, 13) := by decide +kernel
theorem test_derive_tie : derived 400000 (1 / 2) = (3, 2, 1) := by decide +kernel
theorem test_derive_off_zero : derived 38000 (99 / 100) = (26, 26, 0) := by decide +kernel
theorem test_derive_on_zero : derived 1000000 (3 / 10) = (1, 0, 1) := by decide +kernel
theorem test_derive_largest_frequency : derived 2000000 (1 / 2) = (1, 1, 0) := by decide +kernel
theorem test_derive_period_zero : derived 2000001 (1 / 2) = (0, 0, 3) := by decide +kernel
theorem test_derive_wide : derived (1 / 5000) (1 / 2) = (0, 0, 4) := by decide +kernel
theorem test_derive_frequency_first : derived 0 0 = (0, 0, 1) := by decide +kernel
theorem test_derive_duty_bound : derived 38000 1 = (0, 0, 2) := by decide +kernel
theorem test_num_cycles_top : numCycles nec 4294967295 = 165191049 := by decide
theorem test_num_cycles_below_period : numCycles nec 25 = 0 := by decide

/-! ## The append operations: tables V3 to V6 -/

theorem test_append_carrier_two_cycles :
    (after (exec (.appendCarrier 52#32) (issuedBy .builder none))).map (·.timeline) =
      some [⟨1#32, 0#32, 13#32⟩, ⟨0#32, 1#32, 13#32⟩, ⟨1#32, 0#32, 13#32⟩, ⟨0#32, 1#32, 13#32⟩] := by decide

theorem test_append_carrier_overflow :
    (after (exec (.appendCarrier 52#32) (issuedBy .builder (some 3)))).map
      (fun t => (t.tlLen, t.fault, t.finfo, t.response, t.wstate)) =
      some (3, 0x80#8, some 0#32, some 7#8, .failed) := by decide

theorem test_append_gap_zero :
    (after (exec (.appendGap 0#32) (issuedBy .builder none))).map (·.timeline) = some [⟨0#32, 0#32, 0#32⟩] := by decide

theorem test_append_gap_by_host :
    (after (exec (.appendGap 4500#32) State.reset)).map (fun t => (t.tlLen, t.fault, t.finfo, t.response, t.wstate)) =
      some (0, 0x20#8, some 2#32, some 5#8, .unbuilt) := by decide

theorem test_append_bit_gap_first :
    (after (exec (.appendBit true) { instanceD with issuer := .encoder })).map
      (fun t => t.timeline.map (fun p => p.delay.toNat)) = some [50, 13, 12, 13, 12, 13, 12, 13, 12] := by decide

theorem test_append_bit_burst_dropped :
    (after (exec (.appendBit false) { instanceD with issuer := .encoder })).map (·.timeline) =
      some [⟨0#32, 0#32, 30#32⟩] := by decide

theorem test_nec_bits_of_the_example :
    (necBits 0x00081387#32).map Bool.toNat =
      [0, 0, 0, 1, 0, 0, 0, 0, 1, 1, 0, 0, 1, 0, 0, 0, 1, 1, 1, 0, 0, 0, 0, 1, 0, 0, 0, 1, 1, 1, 1, 0] := by decide

theorem test_payload_of_program_d :
    (after (exec .payload { instanceD with issuer := .builder })).map (fun t => t.timeline.map (fun p => p.delay.toNat)) =
      some [50, 13, 12, 13, 12, 13, 12, 13, 12, 30] := by decide

/-! ## BUILD and SEND: programs D, E, G and table V8 -/

theorem test_build_program_d :
    (after (exec .build instanceD)).map (fun t => (t.tlLen, totalTime t.timeline, t.wstate, t.waveId, t.response)) =
      some (15, 230, .built, some 4#32, some 0#8) := by decide

theorem test_build_refused_by_driver :
    (after (exec .build { instanceD with driver := { instanceD.driver with creates := [0xFFFFFFFF#32] } })).map
      (fun t => (t.tlLen, t.wstate, t.fault, t.finfo, t.response)) =
      some (15, .failed, 0x08#8, some 0xFFFFFFFF#32, some 3#8) := by decide

theorem test_send_bad_id :
    (after (exec .send (built [.badId] []))).map (fun t => (t.fault, t.finfo, t.response, t.wstate, t.polling)) =
      some (0x10#8, some 1#32, some 4#8, .built, false) := by decide

theorem test_send_unbuilt :
    (after (exec .send State.reset)).map (fun t => (t.fault, t.finfo, t.response)) =
      some (0x40#8, some 0#32, some 6#8) := by decide

theorem test_poll_hw_fault :
    (after (step { built [] [.hwFault] with polling := true })).map (fun t => (t.fault, t.finfo, t.response, t.polling)) =
      some (0x10#8, some 3#32, some 4#8, false) := by decide

theorem test_reset_releases :
    (after (step (fed [.reset 1#32] (built [] [])))).map (fun t => (t.code, t.wstate, t.tlLen, t.history.drop 1)) =
      some (1#32, .unbuilt, 0, [.release 5#32]) := by decide +kernel

theorem test_word_placed_runs :
    (after (step (State.reset.withFetchWord 40 0x010000001A))).map (·.tlLen) = some 2 := by decide

theorem test_build_after_reset_answers :
    (after (step (State.reset.withFetchWord 40 0x0500000000))).isSome = true := by decide +kernel

theorem test_gap_signal : signalAt 3 true [gapRecord 5#32, gapRecord 2#32] 6 = some true := by decide

/-! ## Witnesses: for each statement with hypotheses, terms that meet them all -/

theorem witness_illegal_word_op_zero :
    (fed [.command .host 0#40] State.reset).polling = false ∧ (0x0000000000#40).extractLsb' 32 8 = 0#8 := by decide
theorem witness_illegal_word_op_seven :
    7 ≤ ((0x0700000000#40).extractLsb' 32 8).toNat ∧ 7 ≤ ((0xFF00000000#40).extractLsb' 32 8).toNat := by decide
theorem witness_illegal_word_append_bit :
    (0x0380000001#40).extractLsb' 32 8 = 3#8 ∧ (0x0380000001#40).extractLsb' 1 31 ≠ 0#31 := by decide
theorem witness_illegal_word_plain :
    (0x0400000001#40).extractLsb' 32 8 = 4#8 ∧ (0x0400000001#40).extractLsb' 0 32 ≠ 0#32 ∧
      (0x0580000000#40).extractLsb' 32 8 = 5#8 ∧ (0x0580000000#40).extractLsb' 0 32 ≠ 0#32 ∧
      (0x0600000001#40).extractLsb' 32 8 = 6#8 ∧ (0x0600000001#40).extractLsb' 0 32 ≠ 0#32 := by decide
theorem witness_opcode_rows : (⟨"SEND", 0x0600000000#40, 0xFFFFFFFFFF#40⟩ : OpcodeRow) ∈ opcodeTable ∧
    (⟨"SEND", 0x0600000000#40, 0xFFFFFFFFFF#40⟩ : OpcodeRow).takes 0x0600000000#40 = true := by decide
theorem witness_step_runs :
    let s := fed [.command .encoder 0x0300000001#40] State.reset
    s.polling = false ∧ s.inputs = .command .encoder 0x0300000001#40 :: [] ∧
      decode 0x0300000001#40 = .ok (.appendBit true) := ⟨rfl, rfl, rfl⟩
theorem witness_run_over : State.reset.runOver = true := by decide
theorem witness_unpermitted :
    State.reset.issuer ≠ .builder ∧ State.reset.issuer ≠ .encoder ∧ (issuedBy .encoder none).issuer ≠ .host := by decide
theorem witness_command_answered_ok :
    (after (exec (.appendGap 7#32) (issuedBy .builder none))).map (·.response) = some (some 0#8) := by decide
theorem witness_command_answered_fault :
    (after (exec .payload State.reset)).map (·.response) = some (some 5#8) := by decide
theorem witness_command_answered_send :
    (after (exec .send (built [.ok] []))).map (fun t => (t.polling, t.response)) = some (true, none) := by decide
theorem witness_reset_sequence :
    let s := fed [.reset 0x00081387#32] State.reset
    s.polling = false ∧ s.inputs = .reset 0x00081387#32 :: [] ∧
      (deriveCarrier s.params.numerics s.params.profile).toOption = some nec := by decide +kernel
theorem witness_reset_sequence_built :
    takesReset (fed [.reset 7#32] (built [] [])) = true ∧ (built [] []).wstate = .built := by decide
theorem witness_reset_validation :
    let s := fed [.reset 0#32] { State.reset with params := { defaultParams with
      profile := { necProfile with dutyCycle := 1 } } }
    s.polling = false ∧ s.inputs = .reset 0#32 :: [] ∧
      (match deriveCarrier s.params.numerics s.params.profile with | .error r => r | .ok _ => 0) = 2 := by decide +kernel
theorem witness_carrier_checks :
    (-5 : Rat) ≤ 0 ∧ (0 : Rat) < 38000 ∧ (0 : Rat) ≤ 0 ∧ (1 : Rat) ≤ 1 ∧
      (1000000 / (2000001 : Rat) + 1 / 2).floor = 0 ∧ (1000000 / (2000000 : Rat) + 1 / 2).floor ≠ 0 ∧
      2 ^ 32 ≤ (1000000 / (1 / 5000 : Rat) + 1 / 2).floor := by decide +kernel
theorem witness_carrier_constructs : (deriveCarrier .exact profileD).toOption = some ⟨25#32, 13#32, 12#32⟩ := by
  decide +kernel
theorem witness_carrier_given : (Numerics.given 53 25 12).admissible profileD = true ∧
    (deriveCarrier (.given 53 25 12) profileD).toOption = some ⟨25#32, 12#32, 13#32⟩ := by decide +kernel
/-- A duty cycle no float holds: at 25 microseconds and 0.5 + 2^-60 the product lies just above the tie, and 12 is
admissible for a float of 53 bits where the exact result is 13; at 26 microseconds it is near 13 and 12 is not. -/
theorem witness_carrier_not_held :
    let d : Rat := 1 / 2 + 1 / 2 ^ 60
    floatHolds 53 d = false ∧ (Numerics.given 53 25 12).admissible { profileD with dutyCycle := d } = true ∧
      (Numerics.given 53 26 12).admissible { necProfile with dutyCycle := d } = false := by decide +kernel
theorem witness_nec_carrier : (Numerics.given 24 26 13).admissible necProfile = true := by decide +kernel
theorem witness_carrier_checks_given :
    let p := fun f => { necProfile with frequencyHz := f }
    (Numerics.given 53 0 0).admissible (p 0) = true ∧ (Numerics.given 53 0 0).admissible (p 2000001) = true ∧
      (Numerics.given 53 4294967296 2147483648).admissible (p (1000000 / 4294967296)) = true := by decide +kernel
theorem witness_num_cycles : 1 ≤ nec.cyclePeriod.toNat := by decide
theorem witness_append_carrier :
    let s := issuedBy .builder (some 42)
    s.issuer = .builder ∧ s.wstate = .unbuilt ∧ s.carrier = some nec ∧
      fitsCap s.params.tlCap (s.timeline.length + 2 * ((562#32).toNat / nec.cyclePeriod.toNat)) := by
  refine ⟨rfl, rfl, rfl, ?_⟩
  show _ ≤ 42
  decide
theorem witness_short_burst :
    (issuedBy .builder none).issuer = .builder ∧ (issuedBy .builder none).carrier = some nec ∧
      (25#32).toNat < nec.cyclePeriod.toNat := by decide
theorem witness_append_gap :
    let s := issuedBy .builder (some 1)
    s.issuer = .builder ∧ s.wstate = .unbuilt ∧ fitsCap s.params.tlCap (s.timeline.length + 1) :=
  ⟨rfl, rfl, Nat.le_refl 1⟩
theorem witness_append_bit :
    let s := { instanceD with issuer := .encoder }
    s.issuer = .encoder ∧ s.wstate = .unbuilt ∧ s.carrier = some ⟨25#32, 13#32, 12#32⟩ ∧
      fitsCap s.params.tlCap (s.timeline.length + (bitRecords s.params ⟨25#32, 13#32, 12#32⟩ true).length) :=
  ⟨rfl, rfl, rfl, trivial⟩
theorem witness_payload :
    let s := { instanceD with issuer := .builder }
    s.issuer = .builder ∧ s.wstate = .unbuilt ∧ s.carrier = some ⟨25#32, 13#32, 12#32⟩ ∧
      encoderCommands s.params.encoder s.code = [true, false].map .ok ∧
      fitsCap s.params.tlCap
        (s.timeline.length + ([true, false].flatMap (bitRecords s.params ⟨25#32, 13#32, 12#32⟩)).length) :=
  ⟨rfl, rfl, rfl, rfl, trivial⟩
theorem witness_append_overflow_carrier :
    let s := issuedBy .builder (some 3)
    s.wstate = .unbuilt ∧ s.carrier = some nec ∧ s.issuer = .builder ∧ s.params.tlCap = some 3 ∧
      s.timeline.length ≤ 3 ∧ 3 < s.timeline.length + (burstOf s.params nec (52#32).toNat).length := by decide
theorem witness_append_overflow_gap :
    let s := issuedBy .builder (some 0)
    s.wstate = .unbuilt ∧ s.carrier = some nec ∧ s.params.tlCap = some 0 ∧ s.timeline.length ≤ 0 ∧
      0 < s.timeline.length + [gapRecord 1#32].length := by decide
theorem witness_append_overflow_bit :
    let s := { instanceD with issuer := .encoder, params := { instanceD.params with tlCap := some 8 } }
    s.wstate = .unbuilt ∧ s.carrier = some ⟨25#32, 13#32, 12#32⟩ ∧ s.issuer = .encoder ∧ s.params.tlCap = some 8 ∧
      8 < s.timeline.length + (bitRecords s.params ⟨25#32, 13#32, 12#32⟩ true).length := by decide
theorem witness_append_overflow_payload :
    let s := { instanceD with issuer := .builder, params := { instanceD.params with tlCap := some 9 } }
    s.wstate = .unbuilt ∧ s.issuer = .builder ∧ s.params.tlCap = some 9 ∧
      9 < s.timeline.length + ([true, false].flatMap (bitRecords s.params ⟨25#32, 13#32, 12#32⟩)).length := by decide
/-- The encoder's later, forbidden command is not reached. -/
theorem witness_append_overflow_payload_nonconforming :
    let s := nonconformingD .builder (some 8)
    s.issuer = .builder ∧ s.wstate = .unbuilt ∧ s.carrier = some ⟨25#32, 13#32, 12#32⟩ ∧ s.params.tlCap = some 8 ∧
      encoderCommands s.params.encoder s.code = [true].map .ok ++ [.error 2#8, .ok false] ∧ s.timeline.length ≤ 8 ∧
      8 < s.timeline.length + ([true].flatMap (bitRecords s.params ⟨25#32, 13#32, 12#32⟩)).length :=
  ⟨rfl, rfl, rfl, rfl, rfl, by decide, by decide⟩
theorem witness_append_after_build :
    let s := fun a => { built [] [] with issuer := a }
    (s .builder).wstate ≠ .unbuilt ∧ (s .encoder).wstate ≠ .unbuilt ∧ (s .builder).params.tlCap = none ∧
      (s .builder).carrier = some nec ∧ nec.cyclePeriod.toNat ≤ (26#32).toNat ∧ 1 ≤ nec.cyclePeriod.toNat := by decide
theorem witness_append_after_build_payload :
    encoderCommands State.reset.params.encoder State.reset.code = .ok false :: ((necBits 0#32).drop 1).map .ok := rfl
theorem witness_carrier_without_value :
    let s := fun a => { instanceD with issuer := a, carrier := none }
    (s .builder).carrier = none ∧ (s .host).wstate = .unbuilt ∧ (s .host).driver.ready = true ∧
      (s .encoder).params.profile.logicalZero.burstFirst = true ∧
      (s .encoder).params.profile.logicalOne.burstFirst = false ∧ (s .encoder).wstate = .unbuilt ∧
      (s .encoder).params.tlCap = none ∧ (s .builder).issuer = .builder := by decide
theorem witness_carrier_without_value_payload :
    encoderCommands instanceD.params.encoder instanceD.code = .ok true :: [.ok false] := rfl
theorem witness_encoder_conforming :
    ([(0#32, [0x0300000001#40, 0x0300000000#40])] : List (Word32 × List CommandWord)).find? (fun r => r.1 = 0#32) =
      some (0#32, [true, false].map (fun b => encode (.appendBit b))) := by decide
/-- Words that are no APPEND_BIT word: another operation's, one with a reserved bit set, one with a reserved op. -/
theorem witness_encoder_other_words :
    (∀ b, (0x0200000005#40 : CommandWord) ≠ encode (.appendBit b)) ∧ (∀ b, 0x0300000002#40 ≠ encode (.appendBit b)) ∧
      (∀ b, 0x0700000000#40 ≠ encode (.appendBit b)) ∧
      encoderCommands (.plugged [(0#32, [0x0200000005#40, 0x0300000002#40, 0x0700000000#40])]) 0#32 =
        [.error 2#8, .error 3#8, .error 7#8] := ⟨by decide, by decide, by decide, rfl⟩
theorem witness_encoder_no_row :
    ([(0#32, [0x0300000001#40])] : List (Word32 × List CommandWord)).find? (fun r => r.1 = 1#32) = none := by decide
theorem witness_build :
    instanceD.issuer = .host ∧ instanceD.wstate = .unbuilt ∧ instanceD.driver.ready = true ∧
      instanceD.carrier = some ⟨25#32, 13#32, 12#32⟩ ∧
      encoderCommands instanceD.params.encoder instanceD.code = [true, false].map .ok ∧
      instanceD.params.tlCap = none ∧ 0 ≤ instanceD.driver.takeCreate.1.toInt := ⟨rfl, rfl, rfl, rfl, rfl, rfl, by decide⟩
theorem witness_build_driver_failure :
    ({ instanceD.driver with creates := [0xFFFFFFFF#32] } : Driver).takeCreate.1.toInt < 0 := by decide
theorem witness_build_overflow :
    let s := { instanceD with params := { instanceD.params with tlCap := some 14 } }
    s.params.tlCap = some 14 ∧ s.timeline.length ≤ 14 ∧ s.wstate = .unbuilt ∧ s.driver.ready = true ∧
      14 < s.timeline.length + (frameRecords s.params ⟨25#32, 13#32, 12#32⟩ [true, false]).length := by decide
/-- The opening and the bit are 14 records: at 14 they fit, at 13 not; the forbidden command then comes, or is not reached. -/
theorem witness_build_nonconforming :
    let s := nonconformingD .host (some 14)
    s.issuer = .host ∧ s.params.tlCap = some 14 ∧ s.wstate = .unbuilt ∧ s.driver.ready = true ∧ s.carrier = some ⟨25#32, 13#32, 12#32⟩ ∧
      encoderCommands s.params.encoder s.code = [true].map .ok ++ .error 2#8 :: [.ok false] ∧
      s.timeline.length + (openingRecords s.params ⟨25#32, 13#32, 12#32⟩ [true]).length ≤ 14 :=
  ⟨rfl, rfl, rfl, rfl, rfl, rfl, by decide⟩
theorem witness_build_overflow_nonconforming :
    let s := nonconformingD .host (some 13)
    s.params.tlCap = some 13 ∧ s.timeline.length ≤ 13 ∧
      13 < s.timeline.length + (openingRecords s.params ⟨25#32, 13#32, 12#32⟩ [true]).length := by decide
theorem witness_payload_nonconforming :
    (nonconformingD .builder none).issuer = .builder ∧ (nonconformingD .builder none).params.tlCap = none := by decide
theorem witness_second_build :
    (built [] []).issuer = .host ∧ (built [] []).wstate ≠ .unbuilt ∧
      ({ State.reset with wstate := .failed } : State).wstate ≠ .unbuilt := by decide
theorem witness_build_without_driver :
    let s := { State.reset with driver := { State.reset.driver with bufferCleared := false } }
    s.issuer = .host ∧ s.wstate = .unbuilt ∧ s.driver.ready = false := by decide
theorem witness_build_deterministic :
    let s := { instanceD with
      params := { instanceD.params with pollInterval := 7 }
      driver := { instanceD.driver with creates := [0x80000000#32] } }
    s.params.profile = instanceD.params.profile ∧ s.params.txPin = instanceD.params.txPin ∧
      s.params.encoder = instanceD.params.encoder ∧ s.params.tlCap = instanceD.params.tlCap ∧
      s.code = instanceD.code ∧ s.carrier = instanceD.carrier ∧ s.timeline = [] ∧
      instanceD.timeline = [] ∧ (after (exec .build s)).isSome = true ∧ (after (exec .build instanceD)).isSome = true :=
  ⟨rfl, rfl, rfl, rfl, rfl, rfl, rfl, rfl, by decide, by decide⟩
theorem witness_nec_build_totals :
    State.reset.params = { defaultParams with txPin := 0 } ∧ State.reset.carrier = some nec ∧
      State.reset.timeline = [] ∧ State.reset.wstate = .unbuilt ∧ State.reset.issuer = .host ∧
      State.reset.driver.ready = true := ⟨rfl, rfl, rfl, rfl, rfl, rfl⟩
theorem witness_send_accepted :
    let s := built [.ok] []
    s.issuer = .host ∧ s.wstate = .built ∧ s.waveId = some 5#32 ∧ s.driver.takeSend.1 = .ok := by decide
theorem witness_send_rejected :
    (built [.badId] []).driver.takeSend.1 ≠ .ok ∧ (built [.badMode] []).driver.takeSend.1 ≠ .ok := by decide
theorem witness_send_not_built :
    State.reset.issuer = .host ∧ State.reset.wstate ≠ .built ∧
      ({ State.reset with wstate := .failed } : State).wstate ≠ .built := by decide
theorem witness_poll_turn :
    let s := fun q => { built [] [q] with polling := true }
    (s .busy).polling = true ∧ (s .busy).driver.takePoll.1 = .busy ∧ (s .idle).driver.takePoll.1 = .idle ∧
      (s .hwFault).driver.takePoll.1 = .hwFault := by decide
theorem witness_send_blocks :
    let s := fed [.command .host 0x0600000000#40] (built [.ok] [.busy, .busy, .idle])
    s.polling = false ∧ s.inputs = .command .host 0x0600000000#40 :: [] ∧ s.wstate = .built ∧ s.waveId = some 5#32 ∧
      s.driver.sends = .ok :: [] ∧ s.driver.polls = List.replicate 2 .busy ++ .idle :: [] := by decide
theorem witness_busy_forever :
    let s := { built [] [.busy, .busy] with polling := true }
    s.polling = true ∧ s.driver.polls = List.replicate 2 .busy ++ [] := by decide
theorem witness_reset_establishes :
    let s := fed [.reset 9#32] State.reset
    s.params.wellFormed = true ∧ takesReset s = true := by decide
theorem witness_driver_initialisation : (fed [.configPin, .clearBuffer] State.reset).polling = false := by decide
theorem witness_time_covered :
    nec.onDuration.toNat + nec.offDuration.toNat = nec.cyclePeriod.toNat ∧ necProfile.durationsFit = true := by decide
theorem witness_square_wave : 12 < 3 * nec.cyclePeriod.toNat ∧ 77 < 3 * nec.cyclePeriod.toNat := by decide
theorem witness_gap_level : 4 < (5#32).toNat ∧ (5#32).toNat ≤ 5 := by decide

/-- A Built instance meets the invariant. -/
theorem witness_invariant_built : Inv (built [.ok] [.idle]) where
  paramsOk := rfl
  memoryOk := by decide
  carrierDerived := by
    show some nec = (deriveCarrier .exact necProfile).toOption
    decide +kernel
  carrierMissing := by decide
  waveIdIff := by decide
  waveIdNonneg := by simp [built]
  handedOff := by simp [built]
  faultBitZero := by decide
  finfoIff := by decide
  failedFault := by decide
  pollingBuilt := by decide

/-- An instance that failed after a BUILD meets the invariant, and still has its carrier. -/
theorem witness_invariant_failed_build :
    Inv { State.reset with wstate := .failed, fault := 0x08#8, finfo := some 0xFFFFFFFF#32 } where
  paramsOk := rfl
  memoryOk := by decide
  carrierDerived := by
    show some nec = (deriveCarrier .exact necProfile).toOption
    decide +kernel
  carrierMissing := by decide
  waveIdIff := by decide
  waveIdNonneg := by simp [State.reset]
  handedOff := by simp [State.reset]
  faultBitZero := by decide
  finfoIff := by decide
  failedFault := by decide
  pollingBuilt := by decide

/-- An instance that could not be constructed meets the invariant, and has none. -/
theorem witness_invariant_not_constructed :
    Inv { State.reset with params := { defaultParams with profile := { necProfile with dutyCycle := 1 } },
                           carrier := none, wstate := .failed, fault := 0x02#8, finfo := some 2#32 } where
  paramsOk := rfl
  memoryOk := by decide
  carrierDerived := by
    show none = (deriveCarrier .exact { necProfile with dutyCycle := 1 }).toOption
    decide +kernel
  carrierMissing := by decide
  waveIdIff := by decide
  waveIdNonneg := by simp [State.reset]
  handedOff := by simp [State.reset]
  faultBitZero := by decide
  finfoIff := by decide
  failedFault := by decide
  pollingBuilt := by decide

/-- The statements over every step have steps to speak of: a Built instance, which meets the invariant, takes SEND,
and the step answers; the instance takes no reset and is not Unbuilt. -/
theorem witness_step_answers :
    let s := fed [.command .host 0x0600000000#40] (built [.ok] [.idle])
    (after (step s)).isSome = true ∧ takesReset s = false ∧ s.wstate ≠ .unbuilt ∧ s.driver.ready = true ∧
      (Input.command .host 0x0600000000#40).fromHost = true := by decide

/-- A HOST's BUILD changes the timeline. -/
theorem witness_host_build_appends :
    let s := fed [.command .host 0x0500000000#40] instanceD
    s.polling = false ∧ ((after (step s)).map (fun t => t.timeline != s.timeline)) = some true := by decide

end Sys2Proof.Tests
end

section
/-! The scope statements (00_scope.md): the carrier timing (O15, O17), an append after the hand-off (O26), and the answer
of every command (O10). -/

namespace Sys2Proof.Machine

/-! ## Carrier timing -/

/-- Where the float holds its operand, a permitted rounding is within a half of it; R70. -/
theorem mayRoundTo_held {precision n : Nat} {x : Rat} (h : mayRoundTo precision true x n = true) :
    x - 1 / 2 ≤ n ∧ (n : Rat) ≤ x + 1 / 2 := by
  simpa [mayRoundTo] using h

/-- The exact rounding is within the same half; D4, R70. -/
theorem roundHalfAway_within_half {x : Rat} (hx : 0 ≤ x) :
    x - 1 / 2 ≤ roundHalfAway x ∧ (roundHalfAway x : Rat) ≤ x + 1 / 2 := by
  obtain ⟨hlow, hhigh⟩ := roundHalfAway_nearest hx
  constructor <;> linarith

/-- A number nearer to `m` than a half has no other natural number within a half of it. -/
theorem eq_of_within_half {n m : Nat} {x : Rat} (h : x - 1 / 2 ≤ n ∧ (n : Rat) ≤ x + 1 / 2)
    (hm : (m : Rat) - 1 / 2 < x ∧ x < m + 1 / 2) : n = m := by
  have hlow : (m : Rat) < n + 1 := by linarith
  have hhigh : (n : Rat) < m + 1 := by linarith
  norm_cast at hlow hhigh
  omega

/-- The NEC quotient is nearest to 26, and no tie; R71. -/
theorem necQuotient_near :
    ((26 : Nat) : Rat) - 1 / 2 < 1000000 / necProfile.frequencyHz ∧
      1000000 / necProfile.frequencyHz < (26 : Nat) + 1 / 2 := by
  norm_num [necProfile]

/-- The NEC product is nearest to 13, and no tie; R71. -/
theorem necProduct_near :
    ((13 : Nat) : Rat) - 1 / 2 < (26 : Nat) * necProfile.dutyCycle ∧
      (26 : Nat) * necProfile.dutyCycle < ((13 : Nat) : Rat) + 1 / 2 := by
  norm_num [necProfile]

/-- Every float of at least the least precision holds the NEC frequency and duty cycle; R71. -/
theorem floatHolds_nec {precision : Nat} (h : leastPrecision ≤ precision) :
    floatHolds precision necProfile.frequencyHz = true ∧ floatHolds precision necProfile.dutyCycle = true :=
  ⟨floatHolds_mono h (by decide +kernel), floatHolds_mono h (by decide +kernel)⟩

/-- Every admissible arithmetic rounds the NEC quotient to 26 and the product to 13; R70, R71. -/
theorem derived_nec {n : Numerics} (h : n.admissible necProfile = true) :
    derivedPeriod n necProfile.frequencyHz = 26 ∧ derivedOn n 26 necProfile.dutyCycle = 13 := by
  cases n with
  | exact =>
    exact ⟨eq_of_within_half (roundHalfAway_within_half (by norm_num [necProfile])) necQuotient_near,
      eq_of_within_half (roundHalfAway_within_half (by norm_num [necProfile])) necProduct_near⟩
  | given precision period onDuration =>
    have hrange : (0 < necProfile.frequencyHz ∧ 0 < necProfile.dutyCycle) ∧ necProfile.dutyCycle < 1 := by
      norm_num [necProfile]
    simp only [Numerics.admissible, Bool.and_eq_true, Bool.or_eq_true, Bool.not_eq_true', decide_eq_true_eq,
      ← Bool.not_eq_true, hrange, and_self, not_true, false_or] at h
    obtain ⟨⟨hprec, -⟩, hperiod, hon⟩ := h
    obtain ⟨hfreq, hduty⟩ := floatHolds_nec hprec
    rw [hfreq] at hperiod
    rw [hduty] at hon
    obtain rfl : period = 26 := eq_of_within_half (mayRoundTo_held hperiod) necQuotient_near
    exact ⟨rfl, eq_of_within_half (mayRoundTo_held hon) necProduct_near⟩

/-- Settles O15: the two rounded numbers are 26 and 13, and the NEC profile passes the four checks of R66 with them. -/
theorem necCarrierTiming : Obligations.NecCarrierTiming := by
  intro n h
  obtain ⟨hperiod, hon⟩ := derived_nec h
  have hfreq : 0 < necProfile.frequencyHz := by norm_num [necProfile]
  have hduty : 0 < necProfile.dutyCycle ∧ necProfile.dutyCycle < 1 := by norm_num [necProfile]
  have hfit : necProfile.durationsFit = true := by decide
  simp [deriveCarrier, hperiod, hon, hfreq, hduty, hfit, durationLimit]

/-- Settles O17: the derived numbers fit 32 bits, so the carrier's fields are the roundings themselves. -/
theorem carrierTimingNearest : Obligations.CarrierTimingNearest := by
  intro p c h
  obtain ⟨hf, hd0, hd1, hne, hlt, -, rfl⟩ := deriveCarrier_ok h
  have hle := derivedOn_le (n := .exact) rfl hd0 hd1
  have hperiod := roundHalfAway_nearest (x := 1000000 / p.frequencyHz) (by positivity)
  have hon := roundHalfAway_nearest (x := (derivedPeriod .exact p.frequencyHz : Rat) * p.dutyCycle) (by positivity)
  simp only [BitVec.toNat_ofNat, Nat.mod_eq_of_lt hlt, Nat.mod_eq_of_lt (hle.trans_lt hlt),
    Nat.mod_eq_of_lt ((Nat.sub_le _ _).trans_lt hlt)]
  exact ⟨Nat.pos_of_ne_zero hne, hperiod.1, hperiod.2, hon.1, hon.2, Nat.add_sub_cancel' hle⟩

/-! ## Appends after the hand-off -/

/-- One more record fits the capacity; R7, R73. -/
theorem hasRoom_of_fitsCap {cap : Option Nat} {m : Memory} (h : fitsCap cap (m.length + 1)) : hasRoom cap m = true := by
  cases cap with
  | none => rfl
  | some n => simpa [hasRoom, fitsCap] using h

/-- A run of records that is not empty stops where the timeline is not Unbuilt and has room; R15, R38. -/
theorem appendAll_stops {ps : List Pulse} {s : State} (hw : s.wstate ≠ .unbuilt)
    (hroom : fitsCap s.params.tlCap (s.timeline.length + 1)) (hps : ps ≠ []) :
    appendAll ps s = .stopped .timelineReadOnly := by
  obtain ⟨p, qs, rfl⟩ := List.exists_cons_of_ne_nil hps
  exact appendAll_readOnly hw (hasRoom_of_fitsCap hroom)

/-- A burst of at least one cycle has records; R72, R74. -/
theorem burstOf_ne_nil {p : Params} {c : Carrier} {d : Nat} (hd : c.cyclePeriod.toNat ≤ d)
    (hc : 1 ≤ c.cyclePeriod.toNat) : burstOf p c d ≠ [] := by
  have : 0 < d / c.cyclePeriod.toNat := Nat.div_pos hd hc
  apply List.ne_nil_of_length_pos
  simpa [burstOf] using this

/-- A logical bit has at least its gap record; R75, R76. -/
theorem bitRecords_ne_nil (p : Params) (c : Carrier) (b : Bool) : bitRecords p c b ≠ [] := by
  cases h : (if b then p.profile.logicalOne else p.profile.logicalZero).burstFirst <;> simp [bitRecords, h]

/-- The end of a stopped operation. -/
@[simp] theorem finish_stopped (b : Bool) (f : Fault) : (Effect.stopped f).finish b = .fault f := rfl

/-- A command from the agent that may issue it is its body; R108. -/
theorem issue_permitted {i : Instr} {body : State → Result} {s : State} (h : mayIssue i s.issuer = true) :
    issue i body s = body s := by
  simp [issue, h]

/-- Settles O26: each operation is a run of appends with a first record, or begins with one. -/
theorem appendAfterBuildStops : Obligations.AppendAfterBuildStops := by
  intro s hw hroom
  have stops : ∀ {ps}, ps ≠ [] → appendAll ps s = .stopped .timelineReadOnly := appendAll_stops hw hroom
  refine ⟨fun hi dur => ?gap, fun c hc => ⟨fun hi dur hd hpos => ?carrier, fun hi b => ?bit,
    fun hi b rest hcs => ?payload⟩⟩
  case gap =>
    rw [exec, execAppendGap, issue_permitted (by simp [mayIssue, hi]), appendGap, stops (by simp), finish_stopped]
  case carrier =>
    rw [exec, execAppendCarrier, issue_permitted (by simp [mayIssue, hi]), appendCarrier_eq_burstOf hc,
      stops (burstOf_ne_nil hd hpos), finish_stopped]
  case bit =>
    rw [exec, execAppendBit, issue_permitted (by simp [mayIssue, hi]), appendBit_eq hc,
      stops (bitRecords_ne_nil _ _ _), finish_stopped]
  case payload =>
    rw [exec, execPayload, issue_permitted (by simp [mayIssue, hi]), appendPayload, hcs, runPayload, appendBit_eq hc,
      stops (bitRecords_ne_nil _ _ _), Effect.andThen, finish_stopped]

/-! ## The answer of a command -/

/-- The lifecycle number of a waveform BUILD refuses; R24, R83. -/
theorem wstateCode_of_ne_unbuilt {w : WState} (h : w ≠ .unbuilt) :
    wstateCode w = if w = .built then 1#32 else 2#32 := by
  cases w <;> simp_all [wstateCode]

/-- The lifecycle number of a waveform SEND refuses; R24, R93. -/
theorem wstateCode_of_ne_built {w : WState} (h : w ≠ .built) :
    wstateCode w = if w = .unbuilt then 0#32 else 2#32 := by
  cases w <;> simp_all [wstateCode]

/-- The faults an instruction can raise in a state, by cause, with their information words; R98, R104, R105. -/
def MayRaise (i : Instr) (s : State) (r : Raise) : Prop :=
  match r.cause with
  | .validation => False
  | .lifecycle => i = .build ∧ s.wstate ≠ .unbuilt ∧ r.info = wstateCode s.wstate
  | .hwConstruct => i = .build ∧ r.info = s.driver.takeCreate.1 ∧ r.info.toInt < 0
  | .transmission => i = .send ∧ s.driver.takeSend.1 ≠ .ok ∧ r.info = sendStatusCode s.driver.takeSend.1
  | .illegalCmd =>
    (mayIssue i s.issuer = false ∧ r.info = i.opcode.setWidth 32) ∨
      ((i = .payload ∨ i = .build) ∧ ∃ (bits : List Bool) (op : Word8) (later : List (Except Word8 Bool)),
        encoderCommands s.params.encoder s.code = bits.map .ok ++ .error op :: later ∧ r.info = op.setWidth 32)
  | .notBuilt => i = .send ∧ s.wstate ≠ .built ∧ r.info = wstateCode s.wstate
  | .tlOverflow => i ≠ .send ∧ s.params.tlCap ≠ none ∧ r.info = 0#32

/-- `t` is an answer to the instruction issued in `s`: `OK`, one of its faults, or SEND in its poll loop; R53, R103. -/
def Answered (i : Instr) (s t : State) : Prop :=
  (t.response = some 0#8 ∧ t.fault = s.fault ∧ t.finfo = s.finfo) ∨
  (∃ r, MayRaise i s r ∧ t.response = some (BitVec.ofNat 8 (causeCode r.cause)) ∧
    t.fault = s.fault ||| faultBit r.cause ∧ t.finfo = some r.info) ∨
  (i = .send ∧ t.polling = true ∧ t.response = none ∧ t.fault = s.fault ∧ t.finfo = s.finfo)

theorem answered_raise {i : Instr} {s u : State} {r : Raise} (b : Bool) (hu : u.fault = s.fault)
    (hr : MayRaise i s r) : Answered i s (u.raise b r) :=
  .inr (.inl ⟨r, hr, rfl, by rw [raise_fault, hu], rfl⟩)

theorem mayRaise_of_overflow {i : Instr} {s : State} {r : Raise} (hi : i ≠ .send)
    (hr : OverflowRaise s.params.tlCap r) : MayRaise i s r := by
  obtain ⟨rfl, hcap⟩ := hr
  exact ⟨hi, hcap, rfl⟩

theorem mayRaise_of_assembly {i : Instr} {s : State} {r : Raise} (hi : i = .payload ∨ i = .build)
    (hr : AssemblyRaise s r) : MayRaise i s r := by
  rcases hr with hr | ⟨bits, op, later, hcs, rfl⟩
  · exact mayRaise_of_overflow (by rcases hi with rfl | rfl <;> simp) hr
  · exact .inr ⟨hi, bits, op, later, hcs, rfl⟩

/-- An operation that only adds records, and raises only faults of the instruction, then its last step; R53, R103. -/
theorem answered_finishWith {i : Instr} {s t : State} {e : Effect} {b : Bool} {last : State → State}
    (he : e.Extends s) (hr : e.RaisesOnly (MayRaise i s)) (hlast : ∀ u, Appended s u → Answered i s (last u))
    (h : e.finishWith b last = .next t) : Answered i s t := by
  cases e with
  | done u =>
    obtain rfl : last u = t := by simpa [Effect.finishWith] using h
    exact hlast u he
  | raised r u =>
    obtain rfl : u.raise b r = t := by simpa [Effect.finishWith] using h
    obtain ⟨⟨ps, rfl, -⟩, -⟩ := he
    exact answered_raise b rfl hr
  | stopped f => cases h
  | refused r => cases h

/-- The same where the last step is the answer `OK`; R53. -/
theorem answered_finish {i : Instr} {s t : State} {e : Effect} {b : Bool} (he : e.Extends s)
    (hr : e.RaisesOnly (MayRaise i s)) (h : e.finish b = .next t) : Answered i s t := by
  refine answered_finishWith he hr (fun u hu => ?_) h
  obtain ⟨ps, rfl, -⟩ := hu
  exact .inl ⟨rfl, rfl, rfl⟩

/-- The submission answers by the sign of the driver's id; R82. -/
theorem answered_submit {s u : State} (hu : Appended s u) : Answered .build s (submit u) := by
  obtain ⟨ps, rfl, -⟩ := hu
  rw [submit_eq]
  split
  case isTrue hid => exact answered_raise true rfl ⟨rfl, rfl, hid⟩
  case isFalse => exact .inl ⟨rfl, rfl, rfl⟩

/-- An unpermitted command raises `IllegalCmd`; any other is answered as its body is; R105 (2), R108. -/
theorem answered_issue {i : Instr} {body : State → Result} {s t : State} (h : issue i body s = .next t)
    (hbody : body s = .next t → Answered i s t) : Answered i s t := by
  rcases issue_cases h with ⟨-, hb⟩ | ⟨hm, rfl⟩
  · exact hbody hb
  · exact answered_raise _ rfl (.inl ⟨hm, rfl⟩)

/-- Every instruction that answers a next state; R53, R103. -/
theorem exec_answered {i : Instr} {s t : State} (h : exec i s = .next t) : Answered i s t := by
  cases i with
  | appendCarrier d =>
    rw [exec, execAppendCarrier] at h
    exact answered_issue h (answered_finish (appendCarrier_extends ..)
      (raisesOnly_mono (fun _ => mayRaise_of_overflow (by simp)) (appendCarrier_raises ..)))
  | appendGap d =>
    rw [exec, execAppendGap] at h
    exact answered_issue h (answered_finish (appendGap_extends ..)
      (raisesOnly_mono (fun _ => mayRaise_of_overflow (by simp)) (appendAll_raises ..)))
  | appendBit b =>
    rw [exec, execAppendBit] at h
    exact answered_issue h (answered_finish (appendBit_extends ..)
      (raisesOnly_mono (fun _ => mayRaise_of_overflow (by simp)) (appendBit_raises ..)))
  | payload =>
    rw [exec, execPayload] at h
    exact answered_issue h (answered_finish (appendPayload_extends s)
      (raisesOnly_mono (fun _ => mayRaise_of_assembly (.inl rfl)) (appendPayload_raises s)))
  | build =>
    rw [exec, execBuild] at h
    refine answered_issue h fun hb => ?_
    split_ifs at hb with hw hready
    · cases hb
      exact answered_raise false rfl ⟨rfl, hw, rfl⟩
    · exact answered_finishWith (assemble_extends s)
        (raisesOnly_mono (fun _ => mayRaise_of_assembly (.inr rfl)) (assemble_raises s)) (fun _ => answered_submit) hb
  | send =>
    rw [exec, execSend] at h
    refine answered_issue h fun hb => ?_
    split_ifs at hb with hw
    · cases hb
      exact answered_raise false rfl ⟨rfl, hw, rfl⟩
    · split at hb
      · cases hb
      · dsimp only at hb
        split_ifs at hb with hst <;> cases hb
        · exact .inr (.inr ⟨rfl, rfl, rfl, rfl, rfl⟩)
        · exact answered_raise false rfl ⟨rfl, hst, rfl⟩

/-- Settles O10: the table of faults (`MayRaise`), read off cause by cause with its codes. -/
theorem commandAnsweredOrPolling : Obligations.CommandAnsweredOrPolling := by
  intro i s t h
  rcases exec_answered h with hok | ⟨⟨cause, info⟩, hr, hresp, hfault, hinfo⟩ | hpoll
  · exact .inl hok
  · refine .inr (.inl ⟨causeCode cause, info, hresp, hfault, hinfo, ?_⟩)
    cases cause with
    | validation => exact hr.elim
    | lifecycle =>
      obtain ⟨hi, hw, hinfo⟩ := hr
      exact .inl ⟨rfl, hi, hw, hinfo.trans (wstateCode_of_ne_unbuilt hw)⟩
    | hwConstruct => exact .inr (.inl ⟨rfl, hr⟩)
    | transmission =>
      obtain ⟨hi, hst, rfl⟩ := hr
      refine .inr (.inr (.inl ⟨rfl, hi, ?_⟩))
      cases hs : s.driver.takeSend.1 with
      | ok => exact absurd hs hst
      | badId => exact .inl ⟨rfl, rfl⟩
      | badMode => exact .inr ⟨rfl, rfl⟩
    | illegalCmd => exact .inr (.inr (.inr (.inl ⟨rfl, hr⟩)))
    | notBuilt =>
      obtain ⟨hi, hw, hinfo⟩ := hr
      exact .inr (.inr (.inr (.inr (.inl ⟨rfl, hi, hw, hinfo.trans (wstateCode_of_ne_built hw)⟩))))
    | tlOverflow => exact .inr (.inr (.inr (.inr (.inr ⟨rfl, hr⟩))))
  · exact .inr (.inr hpoll)

end Sys2Proof.Machine
end

section
/-! The state's registers (10_state.md): reset and the carrier's figures (O11, O14, O18, O45), a burst without a carrier
(O27), the rules over every step (O47, O49, O50, O51, O55) and the status registers (O57). -/

namespace Sys2Proof.Machine

/-! ## The carrier's figures -/

/-- The figures of a derived carrier, as natural numbers: nothing is lost in 32 bits, and the on duration is at most the
period, which is at least 1; R22, R68, R69. -/
theorem deriveCarrier_figures {n : Numerics} {p : Profile} {c : Carrier} (ha : n.admissible p = true)
    (h : deriveCarrier n p = .ok c) :
    c.cyclePeriod.toNat = derivedPeriod n p.frequencyHz ∧
      c.onDuration.toNat = derivedOn n (derivedPeriod n p.frequencyHz) p.dutyCycle ∧
      1 ≤ c.cyclePeriod.toNat ∧ c.onDuration.toNat ≤ c.cyclePeriod.toNat ∧
      c.offDuration.toNat = c.cyclePeriod.toNat - c.onDuration.toNat := by
  obtain ⟨-, hd0, hd1, hne, hlt, -, rfl⟩ := deriveCarrier_ok h
  have hle := derivedOn_le ha hd0 hd1
  simp only [BitVec.toNat_ofNat, Nat.mod_eq_of_lt hlt, Nat.mod_eq_of_lt (hle.trans_lt hlt),
    Nat.mod_eq_of_lt ((Nat.sub_le _ _).trans_lt hlt)]
  exact ⟨trivial, trivial, Nat.pos_of_ne_zero hne, hle, trivial⟩

/-- What R70 asks of the two results of a float arithmetic, for a profile that passes R66's first two checks. -/
theorem admissible_given {precision period onDuration : Nat} {p : Profile}
    (ha : (Numerics.given precision period onDuration).admissible p = true) (hf : 0 < p.frequencyHz)
    (hd0 : 0 < p.dutyCycle) (hd1 : p.dutyCycle < 1) :
    mayRoundTo precision (floatHolds precision p.frequencyHz) (1000000 / p.frequencyHz) period = true ∧
      mayRoundTo precision (floatHolds precision p.dutyCycle) ((period : Rat) * p.dutyCycle) onDuration = true := by
  simpa [Numerics.admissible, hf, hd0, hd1, -not_and, -not_lt] using (Bool.and_eq_true_iff.1 ha).2

/-- A permitted rounding is within a half, and the float error, of what it rounds, whether the float holds its operand or
not; R70. -/
theorem mayRoundTo_within_error {precision n : Nat} {operandHeld : Bool} {x : Rat} (hx : 0 ≤ x)
    (h : mayRoundTo precision operandHeld x n = true) :
    (n : Rat) - (1 / 2 + 8 * x / 2 ^ precision) ≤ x ∧ x ≤ n + (1 / 2 + 8 * x / 2 ^ precision) := by
  have herror : 0 ≤ 8 * x / 2 ^ precision := by positivity
  simp only [mayRoundTo, Bool.and_eq_true, decide_eq_true_eq] at h
  obtain ⟨hlow, hhigh⟩ := h
  cases operandHeld with
  | true => rw [if_pos rfl] at hlow hhigh; constructor <;> linarith
  | false => rw [if_neg (by simp)] at hlow hhigh; constructor <;> linarith

/-- Two numbers within a half of each other, said from the other one's side. -/
theorem within_half_symm {n x : Rat} (h : x - 1 / 2 ≤ n ∧ n ≤ x + 1 / 2) : n - 1 / 2 ≤ x ∧ x ≤ n + 1 / 2 := by
  constructor <;> linarith

/-- Settles O18: the figures add up in every arithmetic; how near they are is a fact of the exact rounding, or what the
arithmetic's admissibility asks. -/
theorem carrierSumEveryNumerics : Obligations.CarrierSumEveryNumerics := by
  intro n p c ha h
  obtain ⟨hperiod, hon, hpos, hle, hoff⟩ := deriveCarrier_figures ha h
  obtain ⟨hf, hd0, hd1, -⟩ := deriveCarrier_ok h
  have hquotient : 0 ≤ 1000000 / p.frequencyHz := by positivity
  have hproduct : 0 ≤ (c.cyclePeriod.toNat : Rat) * p.dutyCycle := by positivity
  refine ⟨hpos, by omega, ?_⟩
  rw [← hperiod] at hon
  cases n with
  | exact =>
    simp only [derivedPeriod] at hperiod
    simp only [derivedOn] at hon
    refine ⟨fun _ => ?_, fun _ => ?_, by simp⟩
    · rw [hperiod]; exact within_half_symm (roundHalfAway_within_half hquotient)
    · rw [hon]; exact within_half_symm (roundHalfAway_within_half hproduct)
  | given precision period onDuration =>
    obtain rfl : c.cyclePeriod.toNat = period := hperiod
    obtain rfl : c.onDuration.toNat = onDuration := hon
    obtain ⟨hmayPeriod, hmayOn⟩ := admissible_given ha hf hd0 hd1
    refine ⟨fun hheld => ?_, fun hheld => ?_, fun precision' _ _ heq => ?_⟩
    · exact within_half_symm (mayRoundTo_held (hheld ▸ hmayPeriod))
    · exact within_half_symm (mayRoundTo_held (hheld ▸ hmayOn))
    · cases heq
      have hp := mayRoundTo_within_error hquotient hmayPeriod
      have ho := mayRoundTo_within_error hproduct hmayOn
      exact ⟨hp.1, hp.2, ho.1, ho.2⟩


/-! ## Reset -/

/-- Every way the reset sequence leaves the registers its derivation decides; R120, R121. -/
theorem resetWith_cases (s : State) (x : Word32) :
    (∃ c, deriveCarrier s.params.numerics s.params.profile = .ok c ∧ (s.resetWith x).carrier = some c ∧
      (s.resetWith x).wstate = .unbuilt ∧ (s.resetWith x).fault = 0#8 ∧ (s.resetWith x).finfo = none) ∨
    (∃ r, deriveCarrier s.params.numerics s.params.profile = .error r ∧ (s.resetWith x).carrier = none ∧
      (s.resetWith x).wstate = .failed ∧ (s.resetWith x).fault = faultBit .validation ∧
      (s.resetWith x).finfo = some (BitVec.ofNat 32 r)) := by
  unfold State.resetWith
  cases hd : deriveCarrier s.params.numerics s.params.profile with
  | ok c => exact .inl ⟨c, rfl, rfl, rfl, rfl, rfl⟩
  | error r => exact .inr ⟨r, rfl, rfl, rfl, by simp, rfl⟩

/-- A reset establishes the invariant, from any state with an admissible arithmetic; R120, R121. -/
theorem resetWith_inv {s : State} (hs : s.params.wellFormed = true) (x : Word32) : Inv (s.resetWith x) := by
  refine
    { paramsOk := by simpa using hs
      memoryOk := by simp
      waveIdNonneg := by simp
      handedOff := by simp
      pollingBuilt := by simp
      carrierDerived := ?_, carrierMissing := ?_, waveIdIff := ?_, faultBitZero := ?_, finfoIff := ?_, failedFault := ?_ }
  all_goals
    rcases resetWith_cases s x with ⟨c, hd, hc, hw, hf, hi⟩ | ⟨r, hd, hc, hw, hf, hi⟩ <;>
      simp [hd, hc, hw, hf, hi, Except.toOption, -BitVec.getLsbD_eq_getElem]

/-- The reset state is one that the reset sequence leaves as it is; R34, R120. -/
theorem reset_resetWith : State.reset.resetWith 0#32 = State.reset := by
  have hd : deriveCarrier State.reset.params.numerics State.reset.params.profile = .ok _ := necCarrierTiming .exact rfl
  rw [State.resetWith, hd]
  rfl

/-- Settles O45: the reset state is the outcome of a reset, which establishes the invariant. -/
theorem invariantAtReset : Obligations.InvariantAtReset := by
  unfold Obligations.InvariantAtReset
  rw [← reset_resetWith]
  exact resetWith_inv rfl _

/-- Settles O14: each value stands in the definition of the reset state. -/
theorem resetStateValues : Obligations.ResetStateValues := ⟨rfl, rfl, rfl, rfl, rfl, rfl, rfl, rfl, rfl⟩

/-- Settles O11: the three tables, entry by entry. -/
theorem causeCodesOfTable : Obligations.CauseCodesOfTable := ⟨rfl, rfl, rfl⟩

/-! ## A burst without a carrier -/

/-- A burst has no meaning without a carrier; R121, U8. -/
theorem appendCarrier_refused {s : State} (hc : s.carrier = none) (d : Nat) :
    appendCarrier d s = .refused .carrierNoValue := by
  rw [appendCarrier, hc]

/-- A gap that can be written is written; R73, R75. -/
theorem appendGap_fits {s : State} (hw : s.wstate = .unbuilt) (hroom : fitsCap s.params.tlCap (s.timeline.length + 1))
    (d : Word32) : appendGap d s = .done { s with timeline := s.timeline ++ [gapRecord d] } :=
  appendAll_fits hw fun n hn => by simpa [hn, fitsCap] using hroom

/-- A logical bit has no meaning without a carrier, where its burst comes first or its gap can be written before it. -/
theorem appendBit_refused {s : State} (hc : s.carrier = none) {b : Bool}
    (h : (bitEncoding s.params.profile b).burstFirst = true ∨
      (s.wstate = .unbuilt ∧ fitsCap s.params.tlCap (s.timeline.length + 1))) :
    appendBit b s = .refused .carrierNoValue := by
  rw [appendBit, appendLogicalBit]
  split_ifs with hfirst
  · rw [appendCarrier_refused hc, Effect.andThen]
  · obtain ⟨hw, hroom⟩ := h.resolve_left hfirst
    rw [appendGap_fits hw hroom, Effect.andThen]
    exact appendCarrier_refused (s := { s with timeline := s.timeline ++ _ }) hc _

/-- The end of an operation that has no meaning. -/
@[simp] theorem finishWith_refused (b : Bool) (last : State → State) (r : Refusal) :
    (Effect.refused r).finishWith b last = .refused r := rfl

/-- Settles O27: each command meets a burst without a carrier before anything else could end it. -/
theorem carrierWithoutValueStops : Obligations.CarrierWithoutValueStops := by
  intro s hc
  refine ⟨fun hi dur => ?carrier, fun hi hw hr => ?build, fun b h => ⟨fun hi => ?bit, fun hi rest hcs => ?payload⟩⟩
  case carrier =>
    rw [exec, execAppendCarrier, issue_permitted (by simp [mayIssue, hi]), appendCarrier_refused hc, Effect.finish,
      finishWith_refused]
  case build =>
    rw [exec, execBuild, issue_permitted (by simp [mayIssue, hi]), if_neg (by simp [hw]), if_neg (by simp [hr]),
      assemble, appendCarrier_refused hc]
    rfl
  case bit =>
    rw [exec, execAppendBit, issue_permitted (by simp [mayIssue, hi]), appendBit_refused hc h, Effect.finish,
      finishWith_refused]
  case payload =>
    rw [exec, execPayload, issue_permitted (by simp [mayIssue, hi]), appendPayload, hcs, runPayload,
      appendBit_refused hc h, Effect.andThen, Effect.finish, finishWith_refused]

/-! ## The rules over every step -/

/-- What the invariant says of a state in the poll loop: its waveform is Built, and the HOST's SEND has no answer yet;
R93. -/
def SendInProgress (s : State) : Prop := s.wstate = .built ∧ s.issuer = .host ∧ s.response = none

section Advance

/-! What an advance keeps, whoever issues the command it takes: no field the lemmas speak of depends on the issuer, which
the step writes first. -/

variable {s t : State} {a : Issuer}

/-- A command leaves every fault bit set that was set; R26, R106. -/
theorem advance_faults_sticky (h : Advance { s with issuer := a } t) : s.fault &&& t.fault = s.fault := by
  rcases h.faults with ⟨hf, -⟩ | ⟨r, hf, -⟩
  · rw [hf, BitVec.and_self]
  · rw [hf]
    ext i hi
    rw [BitVec.getElem_and, BitVec.getElem_or]
    exact inf_sup_self

/-- No command sets bit 0 of the fault register; R26. -/
theorem advance_faultBitZero (h : Advance { s with issuer := a } t) (hs : s.fault.getLsbD 0 = false) :
    t.fault.getLsbD 0 = false := by
  rcases h.faults with ⟨hf, -⟩ | ⟨r, hf, -⟩
  · rw [hf, hs]
  · rw [hf, BitVec.getLsbD_or, hs, faultBit_bit_zero, Bool.or_false]

/-- The information word keeps having a value exactly when a fault is recorded; R27. -/
theorem advance_finfoIff (h : Advance { s with issuer := a } t) (hs : s.finfo = none ↔ s.fault = 0#8) :
    t.finfo = none ↔ t.fault = 0#8 := by
  rcases h.faults with ⟨hf, hi⟩ | ⟨r, hf, hi⟩
  · rw [hf, hi, hs]
  · simp [hf, hi]

/-- A recorded fault stays recorded. -/
theorem advance_fault_ne_zero (h : Advance { s with issuer := a } t) (hs : s.fault ≠ 0#8) : t.fault ≠ 0#8 := by
  intro ht
  have := advance_faults_sticky h
  rw [ht, BitVec.and_zero] at this
  exact hs this.symm

/-- The timeline keeps its form; R23, R37. -/
theorem advance_memoryOk (h : Advance { s with issuer := a } t) (hs : Memory.wf s.params.tlCap s.timeline = true) :
    Memory.wf t.params.tlCap t.timeline = true := by
  obtain ⟨ps, ht, -, hwf⟩ := h.timeline
  rw [h.params, ht]
  exact hwf hs

/-- A waveform that is not Unbuilt keeps its lifecycle state and its id; R24, R25. -/
theorem advance_lifecycle_kept (h : Advance { s with issuer := a } t) (hs : s.wstate ≠ .unbuilt) :
    t.wstate = s.wstate ∧ t.waveId = s.waveId := by
  rcases h.lifecycle with hkept | ⟨hw, -⟩ | ⟨hw, -⟩
  · exact hkept
  · exact absurd hw hs
  · exact absurd hw hs

/-- What was handed to the driver stays the timeline of a Built waveform; R39. -/
theorem advance_handedOff (h : Advance { s with issuer := a } t) (hbuilt : s.waveId.isSome = true → s.wstate = .built)
    (hs : ∀ id, s.waveId = some id → Event.waveCreate s.timeline id ∈ s.history ∧ s.timeline ≠ []) :
    ∀ id, t.waveId = some id → Event.waveCreate t.timeline id ∈ t.history ∧ t.timeline ≠ [] := by
  have kept : t.waveId = s.waveId → ∀ id, t.waveId = some id →
      Event.waveCreate t.timeline id ∈ t.history ∧ t.timeline ≠ [] := by
    intro hid id hsome
    rw [hid] at hsome
    obtain ⟨hcreate, hne⟩ := hs id hsome
    have hw : s.wstate ≠ .unbuilt := by simp [hbuilt (by simp [hsome])]
    obtain ⟨ps, ht, hps, -⟩ := h.timeline
    obtain ⟨es, hh, -⟩ := h.history
    rw [ht, hh, hps hw, List.append_nil]
    exact ⟨List.mem_append_left _ hcreate, hne⟩
  rcases h.lifecycle with ⟨-, hid⟩ | ⟨-, -, hid, -⟩ | ⟨-, -, -, id, hid, -, hcreate, hne⟩
  · exact kept hid
  · exact kept hid
  · intro id' hid'
    obtain rfl : id = id' := by simpa [hid] using hid'
    exact ⟨hcreate, hne⟩

/-- An advance keeps the invariant, but for the clause on the poll loop, of which it says nothing. -/
theorem inv_of_advance (hs : Inv s) (h : Advance { s with issuer := a } t)
    (hp : t.polling = true → SendInProgress t) : Inv t := by
  have hparams : t.params = s.params := h.params
  have hcarrier : t.carrier = s.carrier := h.carrier
  constructor
  case paramsOk => rw [hparams]; exact hs.paramsOk
  case memoryOk => exact advance_memoryOk h hs.memoryOk
  case carrierDerived => rw [hparams, hcarrier]; exact hs.carrierDerived
  case carrierMissing =>
    intro hnone
    have hfailed := hs.carrierMissing (hcarrier ▸ hnone)
    rw [(advance_lifecycle_kept h (by simp [hfailed])).1, hfailed]
  case waveIdIff =>
    rcases h.lifecycle with ⟨hw, hid⟩ | ⟨hw, hw', hid, -⟩ | ⟨-, hw', -, id, hid, -⟩
    · rw [hw, hid]; exact hs.waveIdIff
    · rw [hid, hs.waveIdIff, hw', show s.wstate = .unbuilt from hw]
      simp
    · simp [hw', hid]
  case waveIdNonneg =>
    rcases h.lifecycle with ⟨-, hid⟩ | ⟨-, -, hid, -⟩ | ⟨-, -, -, id, hid, hnonneg, -⟩
    · rw [hid]; exact hs.waveIdNonneg
    · rw [hid]; exact hs.waveIdNonneg
    · simpa [hid] using hnonneg
  case handedOff => exact advance_handedOff h hs.waveIdIff.1 hs.handedOff
  case faultBitZero => exact advance_faultBitZero h hs.faultBitZero
  case finfoIff => exact advance_finfoIff h hs.finfoIff
  case failedFault =>
    intro hfailed
    rcases h.lifecycle with ⟨hw, -⟩ | ⟨-, -, -, hne⟩ | ⟨-, hw', -⟩
    · exact advance_fault_ne_zero h (hs.failedFault (hw ▸ hfailed))
    · exact hne
    · simp [hw'] at hfailed
  case pollingBuilt => exact hp

end Advance

/-- BUILD does not enter the poll loop; R80. -/
theorem build_polling {s t : State} (h : (assemble s).finishWith true submit = .next t) : t.polling = s.polling := by
  obtain ⟨u, ⟨ps, rfl, -⟩, ⟨r, -, rfl⟩ | ⟨-, v, rfl, ⟨-, rfl⟩ | ⟨-, rfl⟩⟩⟩ := build_cases h <;> rfl

/-- The one instruction that enters the poll loop is a HOST's SEND of a Built waveform, which has no answer yet; R93. -/
theorem exec_enters_polling {i : Instr} {s t : State} (h : exec i s = .next t) (hs : s.polling = false)
    (ht : t.polling = true) : SendInProgress t := by
  rcases exec_cases h with rfl | ⟨-, u, ⟨ps, rfl, -⟩, rfl | ⟨r, -, rfl⟩⟩ | ⟨-, -, -, rfl⟩ | ⟨-, -, -, -, hb⟩ |
    ⟨-, -, -, rfl⟩ | ⟨-, hi, hw, id, u, -, rfl, ⟨-, rfl⟩ | ⟨-, rfl⟩⟩
  · simp [hs] at ht
  · simp [hs] at ht
  · simp [hs] at ht
  · simp [hs] at ht
  · simp [build_polling hb, hs] at ht
  · simp [hs] at ht
  · exact ⟨hw, hi, rfl⟩
  · simp [hs] at ht

/-- The one command word that enters the poll loop is such a SEND; R62, R93. -/
theorem runWord_enters_polling {w : CommandWord} {s t : State} (h : runWord w s = .next t) (hs : s.polling = false)
    (ht : t.polling = true) : SendInProgress t := by
  unfold runWord at h
  split at h
  · exact exec_enters_polling h hs ht
  · cases h
    simp [hs] at ht

/-- A turn of the poll loop leaves the lifecycle state as it is; R94, R102. -/
@[simp] theorem pollOnce_wstate (s : State) : (pollOnce s).wstate = s.wstate := by
  unfold pollOnce
  cases hq : s.driver.takePoll.1 <;> simp [hq]

/-- A turn that stays in the poll loop leaves the issuer and the response as they are; R94. -/
theorem pollOnce_polling {s : State} (h : (pollOnce s).polling = true) :
    (pollOnce s).issuer = s.issuer ∧ (pollOnce s).response = s.response := by
  unfold pollOnce at h ⊢
  cases hq : s.driver.takePoll.1 <;> simp_all

/-- Only a Built waveform is in the poll loop after a step that takes no reset, where only one was before; R93. -/
theorem step_pollingBuilt {s t : State} (hr : takesReset s = false) (h : step s = .next t)
    (hs : s.polling = true → SendInProgress s) (ht : t.polling = true) :
    SendInProgress t := by
  rcases step_without_reset hr h with ⟨hp, rfl⟩ | ⟨hp, rfl | ⟨d, e, rest, rfl, -⟩ | ⟨a, w, rest, -, hw⟩⟩
  · obtain ⟨hissuer, hresponse⟩ := pollOnce_polling ht
    rw [SendInProgress, pollOnce_wstate, hissuer, hresponse]
    exact hs hp
  · exact hs ht
  · exact hs ht
  · exact runWord_enters_polling hw hp ht

/-- Every step takes a reset, or does what an advance can do. -/
theorem step_reset_or_advance {s t : State} (h : step s = .next t) :
    (takesReset s = true ∧ ∃ x rest, t = { s with inputs := rest }.resetWith x) ∨
      (takesReset s = false ∧ ∃ a, Advance { s with issuer := a } t) := by
  cases hr : takesReset s with
  | true =>
    obtain ⟨x, rest, -, -, hstep⟩ := step_reset hr
    rw [hstep] at h
    cases h
    exact .inl ⟨rfl, x, rest, rfl⟩
  | false => exact .inr ⟨rfl, step_advance hr h⟩

/-- Settles O47: a reset establishes the invariant, and every other step is an advance, which keeps it. -/
theorem invariantKept : Obligations.InvariantKept := by
  intro s t hs h
  rcases step_reset_or_advance h with ⟨-, x, rest, rfl⟩ | ⟨hr, a, ha⟩
  · exact resetWith_inv (s := { s with inputs := rest }) hs.paramsOk x
  · exact inv_of_advance hs ha (step_pollingBuilt hr h hs.pollingBuilt)

/-- Settles O49: a reset sets bit 1 at most, and an advance only adds bits other than bit 0. -/
theorem faultBitsSticky : Obligations.FaultBitsSticky := by
  intro s t h
  rcases step_reset_or_advance h with ⟨hr, x, rest, rfl⟩ | ⟨-, a, ha⟩
  · refine ⟨by simp [hr], fun _ => ?_⟩
    rcases resetWith_cases { s with inputs := rest } x with ⟨-, -, -, -, hf, -⟩ | ⟨-, -, -, -, hf, -⟩
    · rw [hf]; rfl
    · rw [hf]; rfl
  · exact ⟨fun _ => advance_faults_sticky ha, advance_faultBitZero ha⟩

/-- Settles O51: neither a reset nor an advance writes the parameters, and an advance writes neither constant. -/
theorem constantsKept : Obligations.ConstantsKept := by
  intro s t h
  rcases step_reset_or_advance h with ⟨hr, x, rest, rfl⟩ | ⟨-, a, ha⟩
  · exact ⟨by simp, by simp [hr]⟩
  · exact ⟨ha.params, fun _ => ⟨ha.code, ha.carrier⟩⟩

/-- Settles O55: a reset adds the release of a Built waveform's id, and an advance adds no release. -/
theorem historyGrows : Obligations.HistoryGrows := by
  intro s t h
  rcases step_reset_or_advance h with ⟨hr, x, rest, rfl⟩ | ⟨-, a, ha⟩
  · rw [resetWith_history, releaseWave_history]
    split_ifs with hw
    · exact ⟨_, rfl, fun id hid => ⟨hr, hw, by simpa using hid⟩⟩
    · exact ⟨[], by simp, by simp⟩
  · obtain ⟨es, hh, hes⟩ := ha.history
    exact ⟨es, hh, fun id hid => absurd hid (hes id)⟩

/-- A word is its two fields; R53. -/
theorem opField_append_argField (w : CommandWord) : opField w ++ argField w = w := by
  unfold opField argField
  rw [BitVec.extractLsb'_append_extractLsb'_eq_extractLsb' (by rfl)]
  exact BitVec.extractLsb'_eq_self

/-- An operation without an operand decodes to itself, and from a zero argument only; R57, R59. -/
theorem decodePlain_ok {op : Word8} {arg : Word32} {i j : Instr} (h : decodePlain op arg i = .ok j) :
    arg = 0#32 ∧ i = j := by
  unfold decodePlain at h
  split_ifs at h with harg
  exact ⟨harg, Except.ok.inj h⟩

/-- The one word of BUILD; R62. -/
theorem decode_build {w : CommandWord} (h : decode w = .ok .build) : w = 0x0500000000#40 := by
  simp only [decode] at h
  split at h
  case h_5 hop =>
    have hop : opField w = 5#8 := BitVec.eq_of_toNat_eq hop
    rw [← opField_append_argField w, hop, (decodePlain_ok h).1]
    rfl
  case h_3 =>
    split_ifs at h
    cases h
  case h_4 => cases (decodePlain_ok h).2
  case h_6 => cases (decodePlain_ok h).2
  all_goals cases h

/-- A fault makes no waveform Built; R103. -/
theorem built_of_raise {s : State} {b : Bool} {r : Raise} (h : (s.raise b r).wstate = .built) : s.wstate = .built := by
  cases b with
  | true => cases h
  | false => exact h

/-- The one instruction that makes a waveform Built is a HOST's BUILD; R82, R109. -/
theorem exec_enters_built {i : Instr} {s t : State} (h : exec i s = .next t) (hs : s.wstate ≠ .built)
    (ht : t.wstate = .built) : i = .build ∧ s.issuer = .host := by
  rcases exec_cases h with rfl | ⟨-, u, ⟨ps, rfl, -⟩, rfl | ⟨r, -, rfl⟩⟩ | ⟨hi, ha, -⟩ | ⟨hi, ha, -⟩ |
    ⟨-, -, -, rfl⟩ | ⟨-, -, hw, -⟩
  · exact absurd (built_of_raise ht) hs
  · exact absurd ht hs
  · exact absurd (built_of_raise ht) hs
  · exact ⟨hi, ha⟩
  · exact ⟨hi, ha⟩
  · exact absurd (built_of_raise ht) hs
  · exact absurd hw hs

/-- The one command word that makes a waveform Built is the HOST's BUILD; R62, R109. -/
theorem runWord_enters_built {w : CommandWord} {s t : State} (h : runWord w s = .next t) (hs : s.wstate ≠ .built)
    (ht : t.wstate = .built) : w = 0x0500000000#40 ∧ s.issuer = .host := by
  unfold runWord at h
  split at h
  next i hi =>
    obtain ⟨rfl, ha⟩ := exec_enters_built h hs ht
    exact ⟨decode_build hi, ha⟩
  next =>
    cases h
    exact absurd (built_of_raise ht) hs

/-- Settles O50: an advance keeps what is not Unbuilt, and only the HOST's BUILD word makes a waveform Built. -/
theorem lifecycleLeftOnlyByReset : Obligations.LifecycleLeftOnlyByReset := by
  intro s t hr h
  obtain ⟨a, ha⟩ := step_advance hr h
  refine ⟨fun hw => ?_, fun hw => ?_, fun ht => ?_⟩
  · rw [← hw]; exact advance_lifecycle_kept ha (by simp [hw])
  · rw [← hw]; exact (advance_lifecycle_kept ha (by simp [hw])).1
  · by_contra hnot
    obtain ⟨hs, hinput⟩ := not_or.1 hnot
    rcases step_without_reset hr h with ⟨-, rfl⟩ | ⟨-, rfl | ⟨d, e, rest, rfl, -⟩ | ⟨a, w, rest, hi, hw⟩⟩
    · exact hs (by simpa using ht)
    · exact hs ht
    · exact hs ht
    · obtain ⟨rfl, rfl⟩ := runWord_enters_built hw hs ht
      simp [hi] at hinput

/-! ## The status registers -/

/-- The carrier of a state with the invariant has the figures R22 gives it. -/
theorem inv_carrier_figures {s : State} (hs : Inv s) {c : Carrier} (hc : s.carrier = some c) :
    1 ≤ c.cyclePeriod.toNat ∧ c.onDuration.toNat ≤ c.cyclePeriod.toNat ∧
      c.offDuration.toNat = c.cyclePeriod.toNat - c.onDuration.toNat := by
  have hd : (deriveCarrier s.params.numerics s.params.profile).toOption = some c := hs.carrierDerived ▸ hc
  cases h : deriveCarrier s.params.numerics s.params.profile with
  | error r => simp [h, Except.toOption] at hd
  | ok c' =>
    obtain rfl : c' = c := by simpa [h, Except.toOption] using hd
    exact (deriveCarrier_figures hs.paramsOk h).2.2

/-- Settles O57: each register reads as the field it stands for, and the invariant says which fields have values. -/
theorem statusRegistersReadable : Obligations.StatusRegistersReadable := by
  intro s hs
  refine ⟨fun hw => ?_, fun hw => ?_, fun hf => ?_, fun hf => ?_, fun c hc => ?_, fun hw => ?_, fun hc => ?_, ?_,
    rfl, rfl, rfl⟩
  · obtain ⟨id, hid⟩ := Option.isSome_iff_exists.1 (hs.waveIdIff.2 hw)
    exact ⟨id, hid, by simp [readStatus, hw, hid], hs.waveIdNonneg id hid⟩
  · simp [readStatus, hw]
  · obtain ⟨info, hinfo⟩ := Option.ne_none_iff_exists'.1 (mt hs.finfoIff.1 hf)
    exact ⟨info, hinfo, by simp [readStatus, hf, hinfo]⟩
  · simp [readStatus, hf]
  · exact ⟨by simp [readStatus, hc], by simp [readStatus, hc], by simp [readStatus, hc], inv_carrier_figures hs hc⟩
  · exact Option.isSome_iff_ne_none.2 (mt hs.carrierMissing hw)
  · simp [readStatus, hc]
  · cases hw : s.wstate <;> simp [readStatus, hw, wstateCode]

end Sys2Proof.Machine
end

section
/-! The memory statements (20_memory.md): the timeline under every step (O52, O53, O54), what a gap and a burst mean as a
signal (O59, O60), the step of a command word (O7), the two plain append operations (O20, O22) and the NEC payload's bits
(O28). -/

namespace Sys2Proof.Machine

/-! ## The timeline under every step -/

/-- A step without a reset adds records at the end of the timeline, and none unless Unbuilt; R38, R39. -/
theorem step_appends {s t : State} (hr : takesReset s = false) (h : step s = .next t) :
    ∃ ps, t.timeline = s.timeline ++ ps ∧ (s.wstate ≠ .unbuilt → ps = []) := by
  obtain ⟨a, ha⟩ := step_advance hr h
  obtain ⟨ps, ht, hps, -⟩ := ha.timeline
  exact ⟨ps, ht, hps⟩

/-- Settles O52: records added at the end move none of those in use. -/
theorem timelineAppendOnly : Obligations.TimelineAppendOnly := by
  intro s t hr h
  obtain ⟨ps, ht, -⟩ := step_appends hr h
  rw [tlLen_eq, tlLen_eq, ht]
  exact ⟨by simp, fun i hi => List.getElem?_append_left hi⟩

/-- Settles O53: no records are added to a timeline that is not Unbuilt. -/
theorem timelineReadOnlyAfterHandOff : Obligations.TimelineReadOnlyAfterHandOff := by
  intro s t hr hw h
  obtain ⟨ps, ht, hps⟩ := step_appends hr h
  rw [ht, hps hw, List.append_nil]

/-- The one instruction of a HOST that changes the timeline is BUILD; R108. -/
theorem exec_host_changes_timeline {i : Instr} {s t : State} (h : exec i s = .next t) (ha : s.issuer = .host)
    (ht : t.timeline ≠ s.timeline) : i = .build := by
  rcases exec_cases h with rfl | ⟨hmicro, -⟩ | ⟨hi, -⟩ | ⟨hi, -⟩ | ⟨-, -, -, rfl⟩ |
    ⟨-, -, -, id, u, -, rfl, ⟨-, rfl⟩ | ⟨-, rfl⟩⟩
  · exact absurd rfl ht
  · exact absurd ha hmicro
  · exact hi
  · exact hi
  · exact absurd rfl ht
  · exact absurd rfl ht
  · exact absurd rfl ht

/-- The step that takes a command word runs the word, at the state with the word taken and its issuer named; R53, R105. -/
theorem step_command {s : State} {a : Issuer} {w : CommandWord} {rest : List Input} (hp : s.polling = false)
    (hi : s.inputs = .command a w :: rest) : step s = runWord w { s with inputs := rest, issuer := a } := by
  simp [step, advance, hp, hi, takeInput]

/-- A word that spells an operation runs it; R62. -/
theorem runWord_decoded {w : CommandWord} {i : Instr} (h : decode w = .ok i) (s : State) : runWord w s = exec i s := by
  rw [runWord, h]

/-- A word that spells no operation raises `IllegalCmd`; R58, R59. -/
theorem runWord_illegal {w : CommandWord} {e : DecodeError} (h : decode w = .error e) (s : State) :
    runWord w s = .next (s.raiseIllegal e.opcode) := by
  rw [runWord, h]

/-- Settles O54: an illegal word writes no timeline, and of the instructions a HOST issues only BUILD does. -/
theorem hostCannotAppend : Obligations.HostCannotAppend := by
  intro s t w rest hp hi h ht
  rw [step_command hp hi] at h
  cases hd : decode w with
  | error e =>
    rw [runWord_illegal hd] at h
    cases h
    exact absurd rfl ht
  | ok i =>
    rw [runWord_decoded hd] at h
    obtain rfl := exec_host_changes_timeline h rfl ht
    exact decode_build hd

/-- Settles O7: the step runs the word, and the word its instruction. -/
theorem stepRunsDecodedInstr : Obligations.StepRunsDecodedInstr := by
  intro s a w rest i hp hi hd
  rw [step_command hp hi, runWord_decoded hd]

/-! ## The timeline as a signal -/

/-- A record with a meaning holds its level for its delay, and then the rest of the timeline begins; R41. -/
theorem signalAt_cons {pin : Fin 32} {level l : Bool} {p : Pulse} (hp : p.apply pin level = some l) (m : Memory)
    (t : Nat) :
    signalAt pin level (p :: m) t = if t < p.delay.toNat then some l else signalAt pin l m (t - p.delay.toNat) := by
  rw [signalAt, hp]

/-- A gap record leaves every pin at its level; R37, R75. -/
theorem apply_gapRecord (pin : Fin 32) (level : Bool) (d : Word32) : (gapRecord d).apply pin level = some level := by
  simp [gapRecord, Pulse.apply]

/-- The mask of a pin names it; R6. -/
@[simp] theorem pinMask_bit (pin : Fin 32) : (pinMask pin).getLsbD pin = true := by
  simp [pinMask]

@[simp] theorem assertRecord_delay (pin : Fin 32) (c : Carrier) : (assertRecord pin c).delay = c.onDuration := rfl

@[simp] theorem clearRecord_delay (pin : Fin 32) (c : Carrier) : (clearRecord pin c).delay = c.offDuration := rfl

/-- An assert record drives its pin high, whatever its level; R37. -/
theorem apply_assertRecord (pin : Fin 32) (c : Carrier) (level : Bool) :
    (assertRecord pin c).apply pin level = some true := by
  simp [assertRecord, Pulse.apply]

/-- A clear record drives its pin low, whatever its level; R37. -/
theorem apply_clearRecord (pin : Fin 32) (c : Carrier) (level : Bool) :
    (clearRecord pin c).apply pin level = some false := by
  simp [clearRecord, Pulse.apply]

/-- One carrier cycle: high for the on duration, low for the off duration, and then the rest begins; R37, R41. -/
theorem signalAt_cycle (pin : Fin 32) (level : Bool) (c : Carrier) (m : Memory) (t : Nat) :
    signalAt pin level (assertRecord pin c :: clearRecord pin c :: m) t =
      if t < c.onDuration.toNat then some true
      else if t < c.onDuration.toNat + c.offDuration.toNat then some false
      else signalAt pin false m (t - (c.onDuration.toNat + c.offDuration.toNat)) := by
  rw [signalAt_cons (apply_assertRecord pin c level), signalAt_cons (apply_clearRecord pin c true),
    assertRecord_delay, clearRecord_delay, Nat.sub_sub]
  rcases lt_or_ge t c.onDuration.toNat with hon | hon
  · rw [if_pos hon, if_pos hon]
  · rw [if_neg (Nat.not_lt.2 hon), if_neg (Nat.not_lt.2 hon)]
    simp only [Nat.sub_lt_iff_lt_add' hon]

/-- Settles O59, by induction on the cycles: a time in the first one is in its on or its off duration, and a later time
is as far into a burst of one cycle less. -/
theorem burstIsSquareWave : Obligations.BurstIsSquareWave := by
  intro pin level c n t later hsum
  rw [← burstRecords_eq_cycleRecords]
  induction n generalizing level t with
  | zero => simp
  | succ n ih =>
    intro ht
    rw [burstRecords, List.cons_append, List.cons_append, signalAt_cycle, hsum]
    rcases lt_or_ge t c.cyclePeriod.toNat with hfirst | hlater
    · rw [Nat.mod_eq_of_lt hfirst]
      split_ifs with hon <;> simp [hon]
    · rw [if_neg (by omega), if_neg (by omega), Nat.mod_eq_sub_mod hlater]
      exact ih false _ (by rw [Nat.succ_mul] at ht; omega)

/-- Settles O60: a gap record leaves the pin's level, which is held for the record's delay. -/
theorem gapHoldsLevel : Obligations.GapHoldsLevel := by
  intro pin level d t later
  have hgap := signalAt_cons (apply_gapRecord pin level d) later t
  refine ⟨fun ht => ?during, fun ht => ?after, rfl⟩
  case during => exact hgap.trans (if_pos ht)
  case after => exact hgap.trans (if_neg (Nat.not_lt.2 ht))

/-! ## The plain append operations -/

/-- The end of an operation that came to its end; R53. -/
@[simp] theorem finish_done (b : Bool) (s : State) : (Effect.done s).finish b = .next s.respondOk := rfl

/-- What fits a capacity is at most the capacity; R7. -/
theorem le_of_fitsCap {cap : Option Nat} {n : Nat} (h : fitsCap cap n) : ∀ k, cap = some k → n ≤ k := by
  rintro k rfl
  exact h

/-- Settles O20: the burst is one run of appends of its cycles' records, and they fit. -/
theorem appendCarrierCompletes : Obligations.AppendCarrierCompletes := by
  intro dur s c hi hw hc hfits
  have hroom : ∀ k, s.params.tlCap = some k → s.timeline.length + (burstOf s.params c dur.toNat).length ≤ k := by
    simpa [burstOf] using le_of_fitsCap hfits
  rw [exec, execAppendCarrier, issue_permitted (by simp [mayIssue, hi]), appendCarrier_eq_burstOf hc,
    appendAll_fits hw hroom, finish_done]
  rfl

/-- Settles O22: the gap is one record, and it fits. -/
theorem appendGapCompletes : Obligations.AppendGapCompletes := by
  intro dur s hi hw hfits
  rw [exec, execAppendGap, issue_permitted (by simp [mayIssue, hi]), appendGap_fits hw hfits, finish_done]
  rfl

/-! ## The NEC payload -/

/-- The bits of the 8-bit group that begins at bit `k` of a 32-bit value; R42, R89. -/
theorem groupBits_shift (x : Word32) (k : Nat) :
    groupBits ((x >>> k).setWidth 8) = (List.range 8).map (fun j => x.getLsbD (k + j)) := by
  refine List.map_congr_left fun j hj => ?_
  simp [List.mem_range.1 hj]

/-- The bits of the lowest 8-bit group; R42, R89. -/
theorem groupBits_low (x : Word32) : groupBits (x.setWidth 8) = (List.range 8).map (fun j => x.getLsbD j) := by
  simpa using groupBits_shift x 0

/-- The bits of the complement of the lowest 8-bit group; R42, R89. -/
theorem groupBits_low_not (x : Word32) :
    groupBits ((~~~x).setWidth 8) = (List.range 8).map (fun j => !x.getLsbD j) := by
  rw [groupBits_low]
  refine List.map_congr_left fun j hj => ?_
  have : j < 32 := by have := List.mem_range.1 hj; omega
  simp [this]

/-- Settles O28: the payload is the four groups in their order. -/
theorem necBitsInEmissionOrder : Obligations.NecBitsInEmissionOrder := by
  intro code
  rw [necBits, groupBits_shift, groupBits_shift, groupBits_low, groupBits_low_not]

end Sys2Proof.Machine
end

section
/-! The encoding statements (30_encoding.md): the decoder and its inverse (O1, O2), the opcode table (O3, O4), illegal
words (O5), the pseudo-instructions (O6), a plugged encoder's words (O30), and that a HOST's word is always answered
(O48). -/

namespace Sys2Proof.Machine

/-! ## The decoder and its inverse -/

/-- A word is known by its two fields; R53. -/
theorem eq_append_iff {w : CommandWord} {op : Word8} {arg : Word32} :
    w = op ++ arg ↔ opField w = op ∧ argField w = arg := by
  constructor
  · rintro rfl
    exact ⟨Laws.EncodedWord.opField_append op arg, Laws.EncodedWord.argField_append op arg⟩
  · rintro ⟨rfl, rfl⟩
    exact (opField_append_argField w).symm

/-- An argument without reserved bits is the bit it holds; R56, R59. -/
theorem bit_argument_iff {arg : Word32} {b : Bool} :
    arg = (BitVec.ofBool b).setWidth 32 ↔ arg.extractLsb' 1 31 = 0#31 ∧ arg.getLsbD 0 = b := by
  constructor
  · rintro rfl
    cases b <;> decide
  · rintro ⟨hreserved, rfl⟩
    calc
      arg = arg.extractLsb' 1 31 ++ arg.extractLsb' 0 1 := by
        rw [BitVec.extractLsb'_append_extractLsb'_eq_extractLsb' (by rfl), BitVec.extractLsb'_eq_self]
      _ = 0#31 ++ BitVec.ofBool (arg.getLsbD 0) := by
        rw [hreserved, ← BitVec.setWidth_eq_extractLsb' (by decide), BitVec.setWidth_one]
      _ = (BitVec.ofBool (arg.getLsbD 0)).setWidth 32 := by cases arg.getLsbD 0 <;> rfl

/-- An operation is decoded from exactly the words that hold its `op` and its argument; R62. -/
theorem decode_ok_iff {w : CommandWord} {i : Instr} :
    decode w = .ok i ↔ opField w = i.opcode ∧ argField w = i.argument := by
  constructor
  · intro h
    simp only [decode] at h
    split at h
    case h_1 hop => cases h; exact ⟨BitVec.eq_of_toNat_eq hop, rfl⟩
    case h_2 hop => cases h; exact ⟨BitVec.eq_of_toNat_eq hop, rfl⟩
    case h_3 hop =>
      split_ifs at h with hreserved
      cases h
      exact ⟨BitVec.eq_of_toNat_eq hop, bit_argument_iff.2 ⟨hreserved, rfl⟩⟩
    case h_4 hop => obtain ⟨harg, rfl⟩ := decodePlain_ok h; exact ⟨BitVec.eq_of_toNat_eq hop, harg⟩
    case h_5 hop => obtain ⟨harg, rfl⟩ := decodePlain_ok h; exact ⟨BitVec.eq_of_toNat_eq hop, harg⟩
    case h_6 hop => obtain ⟨harg, rfl⟩ := decodePlain_ok h; exact ⟨BitVec.eq_of_toNat_eq hop, harg⟩
    case h_7 => cases h
  · rintro ⟨hop, harg⟩
    cases i with
    | appendBit b =>
      obtain ⟨hreserved, hbit⟩ := bit_argument_iff.1 harg
      simp [decode, hop, hreserved, ← hbit, Instr.opcode]
    | _ => simp [decode, decodePlain, hop, harg, Instr.opcode, Instr.argument]

/-- Settles O2: the encoding of an instruction is its `op` and its argument put together. -/
theorem decodeEncodeInverse : Obligations.DecodeEncodeInverse := by
  intro w i
  rw [decode_ok_iff, encode, eq_append_iff]

/-- The error of an illegal word carries the word's own `op`; R58, R59. -/
theorem decode_error_opcode {w : CommandWord} {e : DecodeError} (h : decode w = .error e) : e.opcode = opField w := by
  simp only [decode, decodePlain] at h
  split at h
  case h_1 | h_2 => cases h
  case h_7 => cases h; rfl
  all_goals
    split_ifs at h
    cases h
    rfl

/-- A word that spells no operation is an error with its own `op`; R58, R59. -/
theorem decode_error_iff {w : CommandWord} :
    (∃ e, decode w = .error e ∧ e.opcode = opField w) ↔ ∀ i, decode w ≠ .ok i := by
  cases hd : decode w with
  | ok i => simp
  | error e => simp [decode_error_opcode hd]

/-- Settles O1, by evaluation. -/
theorem sampleWordsDecode : Obligations.SampleWordsDecode := ⟨rfl, rfl, rfl, rfl, rfl, rfl, rfl, rfl, rfl, rfl, rfl⟩

/-! ## The opcode table -/

/-- The mask of `op` alone takes exactly the words with that `op`; R62. -/
theorem opMask_iff {w : CommandWord} {op : Word8} : w &&& 0xFF00000000#40 = op ++ 0#32 ↔ opField w = op := by
  rw [← opField_append_argField w, Laws.EncodedWord.masked_op, eq_append_iff]
  simp [Laws.EncodedWord.opField_append, Laws.EncodedWord.argField_append]

/-- The full mask takes exactly the pattern; R62. -/
theorem fullMask_iff {w pattern : CommandWord} : w &&& 0xFFFFFFFFFF#40 = pattern ↔ w = pattern := by
  rw [show 0xFFFFFFFFFF#40 = BitVec.allOnes 40 by decide, BitVec.and_allOnes]

/-- The mask of APPEND_BIT leaves the bit alone; R56, R62. -/
theorem bitMask_iff {w : CommandWord} {b : Bool} :
    w &&& 0xFFFFFFFFFE#40 = 0x0300000000#40 ∧ b = w.getLsbD 0 ↔ w = encode (.appendBit b) := by
  constructor
  · rintro ⟨hmask, rfl⟩
    have hsplit : w = (w &&& 0xFFFFFFFFFE#40) ||| (w &&& 1#40) := by
      rw [← BitVec.and_or_distrib_left, show 0xFFFFFFFFFE#40 ||| 1#40 = BitVec.allOnes 40 by decide,
        BitVec.and_allOnes]
    rw [hmask, BitVec.and_one_eq_setWidth_ofBool_getLsbD] at hsplit
    generalize w.getLsbD 0 = b at hsplit ⊢
    rw [hsplit]
    cases b <;> decide
  · rintro rfl
    cases b <;> decide

/-- The row of APPEND_CARRIER; R55, R62. -/
theorem decode_appendCarrier_iff {w : CommandWord} {d : Word32} :
    decode w = .ok (.appendCarrier d) ↔ w &&& 0xFF00000000#40 = 0x0100000000#40 ∧ d = argField w := by
  rw [show 0x0100000000#40 = 1#8 ++ 0#32 by decide, opMask_iff, decode_ok_iff, eq_comm (a := d)]
  rfl

/-- The row of APPEND_GAP; R55, R62. -/
theorem decode_appendGap_iff {w : CommandWord} {d : Word32} :
    decode w = .ok (.appendGap d) ↔ w &&& 0xFF00000000#40 = 0x0200000000#40 ∧ d = argField w := by
  rw [show 0x0200000000#40 = 2#8 ++ 0#32 by decide, opMask_iff, decode_ok_iff, eq_comm (a := d)]
  rfl

/-- The row of APPEND_BIT; R56, R62. -/
theorem decode_appendBit_iff {w : CommandWord} {b : Bool} :
    decode w = .ok (.appendBit b) ↔ w &&& 0xFFFFFFFFFE#40 = 0x0300000000#40 ∧ b = w.getLsbD 0 := by
  rw [decodeEncodeInverse, bitMask_iff]

/-- The row of an operation without an operand; R57, R62. -/
theorem decode_iff_fullMask {w : CommandWord} {i : Instr} : decode w = .ok i ↔ w &&& 0xFFFFFFFFFF#40 = encode i := by
  rw [decodeEncodeInverse, fullMask_iff]

/-- A row of the table takes a word exactly when the decoder finds an operation in it; R62. -/
theorem wordWellFormed_iff (w : CommandWord) : wordWellFormed w = true ↔ ∃ i, decode w = .ok i := by
  constructor
  · intro h
    simp only [wordWellFormed, opcodeTable, OpcodeRow.takes, List.any_cons, List.any_nil, Bool.or_eq_true,
      Bool.or_false, beq_iff_eq] at h
    rcases h with h | h | h | h | h | h
    · exact ⟨_, decode_appendCarrier_iff.2 ⟨h, rfl⟩⟩
    · exact ⟨_, decode_appendGap_iff.2 ⟨h, rfl⟩⟩
    · exact ⟨_, decode_appendBit_iff.2 ⟨h, rfl⟩⟩
    · exact ⟨.payload, decode_iff_fullMask.2 h⟩
    · exact ⟨.build, decode_iff_fullMask.2 h⟩
    · exact ⟨.send, decode_iff_fullMask.2 h⟩
  · rintro ⟨i, h⟩
    rw [(decodeEncodeInverse w i).1 h]
    cases i with
    | appendCarrier d => exact (Laws.EncodedWord.appendCarrier d).1
    | appendGap d => exact (Laws.EncodedWord.appendGap d).1
    | appendBit b => exact (Laws.EncodedWord.appendBit b).1
    | payload => exact Laws.EncodedWord.payload.1
    | build => exact Laws.EncodedWord.build.1
    | send => exact Laws.EncodedWord.send.1

/-- Settles O3: a row for each operation, and a word that no row takes is one that decodes to no instruction. -/
theorem decoderMatchesOpcodeTable : Obligations.DecoderMatchesOpcodeTable := by
  intro w
  refine ⟨fun d => decode_appendCarrier_iff, fun d => decode_appendGap_iff, fun b => decode_appendBit_iff,
    decode_iff_fullMask, decode_iff_fullMask, decode_iff_fullMask, ?_⟩
  rw [← Bool.not_eq_true, wordWellFormed_iff, not_exists]
  exact decode_error_iff.symm

/-- Every row of the table looks at the whole `op`, so it takes only words with the `op` of its pattern; R62. -/
theorem opField_of_takes {r : OpcodeRow} (hr : r ∈ opcodeTable) {w : CommandWord} (h : r.takes w = true) :
    opField w = opField r.pattern := by
  have hmask : ∀ r ∈ opcodeTable, opField r.mask = BitVec.allOnes 8 := by decide
  have hpattern : w &&& r.mask = r.pattern := beq_iff_eq.1 h
  calc
    opField w = opField w &&& opField r.mask := by rw [hmask r hr, BitVec.and_allOnes]
    _ = opField (w &&& r.mask) := BitVec.extractLsb'_and.symm
    _ = opField r.pattern := by rw [hpattern]

/-- Settles O4: a row takes only words of its own `op`, and no two rows have the same. -/
theorem opcodeRowsDisjoint : Obligations.OpcodeRowsDisjoint := by
  intro w r₁ r₂ h₁ h₂ ht₁ ht₂
  have hinj : ∀ r₁ ∈ opcodeTable, ∀ r₂ ∈ opcodeTable, opField r₁.pattern = opField r₂.pattern → r₁ = r₂ := by decide
  exact hinj r₁ h₁ r₂ h₂ ((opField_of_takes h₁ ht₁).symm.trans (opField_of_takes h₂ ht₂))

/-! ## Illegal words -/

/-- The reserved bits of APPEND_BIT's argument, as bits of the word; R56. -/
theorem argField_reserved (w : CommandWord) : (argField w).extractLsb' 1 31 = w.extractLsb' 1 31 :=
  BitVec.extractLsb'_extractLsb'_of_le (by decide)

/-- Everything an illegal word does; R103, R104. -/
theorem raiseIllegal_writes (op : Word8) (s : State) :
    s.raiseIllegal op =
      { s with
        fault := s.fault ||| 0x20#8
        finfo := some (op.setWidth 32)
        response := some 5#8
        wstate := if s.issuer ≠ .host ∧ s.wstate = .unbuilt then .failed else s.wstate } := by
  simp [State.raiseIllegal, State.raise, State.recordFault, State.inBuild, faultBit, causeCode]

/-- Settles O5: no instruction has the fields of such a word, so it is an error with its own `op`. -/
theorem illegalWordAnswered : Obligations.IllegalWordAnswered := by
  intro s a w rest hp hi hillegal
  have hnone : ∀ i, decode w ≠ .ok i := by
    intro i hd
    obtain ⟨hop, harg⟩ := decode_ok_iff.1 hd
    rw [show w.extractLsb' 32 8 = i.opcode from hop, show w.extractLsb' 0 32 = i.argument from harg] at hillegal
    cases i with
    | appendBit b =>
      have hreserved : w.extractLsb' 1 31 = 0#31 := by
        rw [← argField_reserved]; exact (bit_argument_iff.1 harg).1
      simp [Instr.opcode, hreserved] at hillegal
    | _ => simp [Instr.opcode, Instr.argument] at hillegal
  obtain ⟨e, hd, hop⟩ := decode_error_iff.2 hnone
  rw [step_command hp hi, runWord_illegal hd, raiseIllegal_writes, hop]
  rfl

/-! ## Pseudo-instructions -/

/-- APPEND_BYTE is the bits of its group, in their emission order; R42, R64. -/
theorem expand_appendByte (v : Word8) : (Pseudo.appendByte v).expand = (groupBits v).map .appendBit := by
  rw [groupBits, List.map_map]
  rfl

/-- Settles O6: the four groups of the NEC payload are the bytes of the code and the complement of the lowest. -/
theorem pseudoExpansions : Obligations.PseudoExpansions := by
  refine ⟨rfl, rfl, fun v => rfl, fun code => ?_⟩
  have hlow : code.setWidth 8 = code.extractLsb' 0 8 := BitVec.setWidth_eq_extractLsb' (by decide)
  simp only [expand_appendByte, ← List.map_append]
  rw [necBits, BitVec.setWidth_not (by decide), hlow, BitVec.setWidth_ushiftRight_eq_extractLsb,
    BitVec.setWidth_ushiftRight_eq_extractLsb]

/-! ## The words of a plugged encoder -/

/-- A plugged encoder's commands are those of the words of its first row for the code; R87. -/
theorem encoderCommands_plugged {rows : List (Word32 × List CommandWord)} {code : Word32} {words : List CommandWord}
    (h : rows.find? (fun r => r.1 = code) = some (code, words)) :
    encoderCommands (.plugged rows) code = words.map encoderCommand := by
  rw [encoderCommands, pluggedWords_eq_find, h]
  rfl

/-- An APPEND_BIT word asks for its bit; R87. -/
theorem encoderCommand_appendBit (b : Bool) : encoderCommand (encode (.appendBit b)) = .ok b := by
  rw [encoderCommand, (decodeEncodeInverse _ _).2 rfl]

/-- Any other word is a command the ENCODER may not issue, by the word's own `op`; R87, R108. -/
theorem encoderCommand_other {w : CommandWord} (h : ∀ b, w ≠ encode (.appendBit b)) :
    encoderCommand w = .error (opField w) := by
  unfold encoderCommand
  split
  next b hd => exact absurd ((decodeEncodeInverse _ _).1 hd) (h b)
  next i _ hd => rw [(decode_ok_iff.1 hd).1]
  next e hd => rw [decode_error_opcode hd]

/-- Settles O30: the commands are the words of the code's first row, each taken on its own. -/
theorem encoderCommandsOfWords : Obligations.EncoderCommandsOfWords := by
  refine ⟨fun rows code words hrow => ?row, fun rows code hnone => ?norow, fun code => rfl⟩
  case row =>
    rw [encoderCommands_plugged hrow]
    refine ⟨List.length_map .., fun k w hk => ⟨?_, fun hother => ?_⟩, ?_⟩
    · rintro b rfl
      rw [List.getElem?_map, hk, Option.map_some, encoderCommand_appendBit]
    · rw [List.getElem?_map, hk, Option.map_some, encoderCommand_other hother]
      rfl
    · rintro bits rfl
      simp [encoderCommand_appendBit]
  case norow => rw [encoderCommands, pluggedWords_eq_find, hnone]; rfl

/-! ## A HOST's input is always answered -/

/-- A command from an agent that may not issue it raises `IllegalCmd`; R105, R108. -/
theorem issue_forbidden {i : Instr} {body : State → Result} {s : State} (h : mayIssue i s.issuer = false) :
    issue i body s = .next (s.raiseIllegal i.opcode) := by
  simp [issue, h]

/-- The assembly of an Unbuilt instance with a carrier comes to its end or is ended by a fault: nothing stops it but a
missing carrier or a timeline that is read-only; R81, R84. -/
theorem assemble_total {s : State} {c : Carrier} (hw : s.wstate = .unbuilt) (hc : s.carrier = some c) :
    (∃ u, assemble s = .done u) ∨ ∃ r u, assemble s = .raised r u := by
  obtain ⟨bits, hb | ⟨op, later, hb⟩⟩ := encoderCommands_cases (encoderCommands s.params.encoder s.code)
  · rw [assemble_eq hc hb]
    rcases appendAll_total hw (frameRecords s.params c bits) with ⟨m, h⟩ | ⟨m, h⟩
    · exact .inl ⟨_, h⟩
    · exact .inr ⟨_, _, h⟩
  · rw [assemble_append hc hb]
    rcases appendAll_total hw (openingRecords s.params c bits) with ⟨m, h⟩ | ⟨m, h⟩
    · rw [h]; exact .inr ⟨_, _, rfl⟩
    · rw [h]; exact .inr ⟨_, _, rfl⟩

/-- BUILD's assembly and submission are so always answered; R80, R82. -/
theorem build_answers {s : State} {c : Carrier} (hw : s.wstate = .unbuilt) (hc : s.carrier = some c) :
    ∃ t, (assemble s).finishWith true submit = .next t := by
  rcases assemble_total hw hc with ⟨u, h⟩ | ⟨r, u, h⟩
  · rw [h]; exact ⟨_, rfl⟩
  · rw [h]; exact ⟨_, rfl⟩

/-- A HOST's BUILD is answered where only a Failed instance has no carrier; R80, R121. -/
theorem execBuild_answers {s : State} (ha : s.issuer = .host) (hr : s.driver.ready = true)
    (hc : s.carrier = none → s.wstate = .failed) : ∃ t, execBuild s = .next t := by
  rw [execBuild, issue_permitted (by simp [mayIssue, ha])]
  by_cases hw : s.wstate = .unbuilt
  · obtain ⟨c, hsome⟩ := Option.ne_none_iff_exists'.1 (mt hc (by simp [hw]))
    rw [if_neg (by simp [hw]), if_neg (by simp [hr])]
    exact build_answers hw hsome
  · rw [if_pos hw]; exact ⟨_, rfl⟩

/-- A HOST's SEND is answered where a Built instance has an id; R25, R93. -/
theorem execSend_answers {s : State} (ha : s.issuer = .host) (hid : s.waveId.isSome = true ↔ s.wstate = .built) :
    ∃ t, execSend s = .next t := by
  rw [execSend, issue_permitted (by simp [mayIssue, ha])]
  by_cases hw : s.wstate = .built
  · obtain ⟨id, hsome⟩ := Option.isSome_iff_exists.1 (hid.2 hw)
    rw [if_neg (by simp [hw]), hsome]
    exact ⟨_, rfl⟩
  · rw [if_pos hw]; exact ⟨_, rfl⟩

/-- Every operation of a HOST is answered: it may issue only two, and the others raise `IllegalCmd`; R108. -/
theorem exec_host_answers {s : State} (i : Instr) (ha : s.issuer = .host) (hr : s.driver.ready = true)
    (hc : s.carrier = none → s.wstate = .failed) (hid : s.waveId.isSome = true ↔ s.wstate = .built) :
    ∃ t, exec i s = .next t := by
  cases i with
  | build => exact execBuild_answers ha hr hc
  | send => exact execSend_answers ha hid
  | appendCarrier dur => rw [exec, execAppendCarrier, issue_forbidden (by simp [mayIssue, ha])]; exact ⟨_, rfl⟩
  | appendGap dur => rw [exec, execAppendGap, issue_forbidden (by simp [mayIssue, ha])]; exact ⟨_, rfl⟩
  | appendBit b => rw [exec, execAppendBit, issue_forbidden (by simp [mayIssue, ha])]; exact ⟨_, rfl⟩
  | payload => rw [exec, execPayload, issue_forbidden (by simp [mayIssue, ha])]; exact ⟨_, rfl⟩

/-- Every step with the HOST's inputs alone answers a next state; R104, R106. -/
theorem step_host_answers {s : State} (hs : Inv s) (hr : s.driver.ready = true)
    (hhost : ∀ x rest, s.inputs = x :: rest → x.fromHost = true) : ∃ t, step s = .next t := by
  unfold step advance
  split_ifs with hp
  · exact ⟨_, rfl⟩
  split
  next => exact ⟨_, rfl⟩
  next x rest hi =>
    cases x with
    | configPin => exact ⟨_, rfl⟩
    | clearBuffer => exact ⟨_, rfl⟩
    | reset codeIn => exact ⟨_, rfl⟩
    | command a w =>
      obtain rfl : a = .host := by simpa [Input.fromHost] using hhost _ _ hi
      rw [takeInput]
      cases hd : decode w with
      | error e => exact ⟨_, runWord_illegal hd _⟩
      | ok i => rw [runWord_decoded hd]; exact exec_host_answers i rfl hr hs.carrierMissing hs.waveIdIff

/-- No step undoes the driver's initialisation; R123, R124. -/
theorem step_ready {s t : State} (h : step s = .next t) (hr : s.driver.ready = true) : t.driver.ready = true := by
  rcases step_reset_or_advance h with ⟨-, x, rest, rfl⟩ | ⟨-, a, ha⟩
  · simpa using hr
  · exact ha.ready hr

/-- Settles O48: the step is answered, and neither a reset nor an advance undoes the driver's initialisation. -/
theorem hostRunsNeverStop : Obligations.HostRunsNeverStop := by
  intro s hs hr hhost
  obtain ⟨t, ht⟩ := step_host_answers hs hr hhost
  exact ⟨t, ht, step_ready ht hr⟩

end Sys2Proof.Machine
end

section
/-! The carrier and its profile (40_carrier_profile.md): the derivation's checks (O16), the cycle count (O19), and the
timeline after BUILD as a function of what the instance is built with (O37). -/

namespace Sys2Proof.Machine

/-! ## The timeline after BUILD -/

/-- An operation that came to its end, or that a fault ended, left this timeline. -/
def Effect.EndsAt (m : Memory) (e : Effect) : Prop :=
  match e with
  | .done u => u.timeline = m
  | .raised _ u => u.timeline = m
  | _ => True

/-- One operation after another, where the second leaves the first one's timeline as it is. -/
theorem endsAt_andThen {m : Memory} {e : Effect} {f : State → Effect} (he : e.EndsAt m)
    (hf : ∀ u, u.timeline = m → (f u).EndsAt m) : (e.andThen f).EndsAt m := by
  cases e with
  | done u => exact hf u he
  | raised r u => exact he
  | stopped x => trivial
  | refused x => trivial

/-- The end of a command writes no timeline, when its last step writes none; R103. -/
theorem timeline_of_endsAt {m : Memory} {e : Effect} {b : Bool} {last : State → State} {t : State} (he : e.EndsAt m)
    (hlast : ∀ u, (last u).timeline = u.timeline) (h : e.finishWith b last = .next t) : t.timeline = m := by
  cases e with
  | done u => cases h; exact (hlast u).trans he
  | raised r u => cases h; exact he
  | stopped x => cases h
  | refused x => cases h

/-- An append on an Unbuilt instance ends with the records that fit the capacity; R73. -/
theorem appendAll_endsAt {s : State} (hw : s.wstate = .unbuilt) (ps : List Pulse) :
    (appendAll ps s).EndsAt (appendRecords s.params.tlCap true ps s.timeline).1 := by
  rw [appendAll, hw]
  rcases h : appendRecords s.params.tlCap true ps s.timeline with ⟨m, _ | _ | _⟩
  all_goals simp [h, Effect.EndsAt]

/-- The submission hands the timeline to the driver as it is; R82. -/
theorem submit_timeline (s : State) : (submit s).timeline = s.timeline := by
  rw [submit_eq]
  split_ifs <;> rfl

/-- With a conforming encoder the assembly is one append of the frame's records; R81. -/
theorem assemble_endsAt_frame {s : State} {c : Carrier} {bits : List Bool} (hw : s.wstate = .unbuilt)
    (hc : s.carrier = some c) (hb : encoderCommands s.params.encoder s.code = bits.map .ok) :
    (assemble s).EndsAt (appendRecords s.params.tlCap true (frameRecords s.params c bits) s.timeline).1 :=
  assemble_eq hc hb ▸ appendAll_endsAt hw _

/-- A command the encoder may not issue ends the assembly behind the bits before it; R87. -/
theorem assemble_endsAt_opening {s : State} {c : Carrier} {bits : List Bool} {op : Word8}
    {later : List (Except Word8 Bool)} (hw : s.wstate = .unbuilt) (hc : s.carrier = some c)
    (hb : encoderCommands s.params.encoder s.code = bits.map .ok ++ .error op :: later) :
    (assemble s).EndsAt (appendRecords s.params.tlCap true (openingRecords s.params c bits) s.timeline).1 := by
  rw [assemble_append hc hb, andThen_assoc]
  exact endsAt_andThen (appendAll_endsAt hw _) fun u hu => hu

/-- Without a carrier the assembly has no end; R121. -/
theorem assemble_endsAt_of_no_carrier {s : State} (hc : s.carrier = none) (m : Memory) : (assemble s).EndsAt m := by
  rw [assemble, appendCarrier_refused hc]
  trivial

/-- A HOST's first BUILD that is answered leaves the timeline its assembly ended at; R80. -/
theorem build_timeline {s t : State} {m : Memory} (hi : s.issuer = .host) (hw : s.wstate = .unbuilt)
    (h : exec .build s = .next t) (he : (assemble s).EndsAt m) : t.timeline = m := by
  rw [exec, execBuild, issue_permitted (by simp [mayIssue, hi]), if_neg (by simp [hw])] at h
  split_ifs at h
  exact timeline_of_endsAt he submit_timeline h

section SameProfile

variable {p q : Params} (hprofile : p.profile = q.profile) (hpin : p.txPin = q.txPin) (c : Carrier) (bits : List Bool)
include hprofile hpin

/-- A burst reads nothing of the parameters but the pin, and a bit nothing but the profile and the pin. -/
theorem openingRecords_congr : openingRecords p c bits = openingRecords q c bits := by
  have hbit : bitRecords p c = bitRecords q c := by
    funext b
    simp only [bitRecords, burstOf, hprofile, hpin]
  simp only [openingRecords, burstOf, hbit, hprofile, hpin]

theorem frameRecords_congr : frameRecords p c bits = frameRecords q c bits := by
  simp only [frameRecords, trailingRecords, burstOf, openingRecords_congr hprofile hpin, hprofile, hpin]

end SameProfile

/-- Settles O37: the timeline is a run of appends of the frame's records, or of the opening's where the encoder does not
conform, and those are the same records for both instances. -/
theorem buildDeterministic : Obligations.BuildDeterministic := by
  intro s₁ s₂ t₁ t₂ hprofile hpin hencoder hcap hcode hcarrier hempty₁ hempty₂ hw₁ hw₂ hi₁ hi₂ h₁ h₂
  have htimeline₁ {m : Memory} : (assemble s₁).EndsAt m → t₁.timeline = m := build_timeline hi₁ hw₁ h₁
  have htimeline₂ {m : Memory} : (assemble s₂).EndsAt m → t₂.timeline = m := build_timeline hi₂ hw₂ h₂
  have hcommands : encoderCommands s₂.params.encoder s₂.code = encoderCommands s₁.params.encoder s₁.code := by
    rw [hencoder, hcode]
  cases hc₁ : s₁.carrier with
  | none =>
    have hc₂ : s₂.carrier = none := hcarrier ▸ hc₁
    rw [htimeline₁ (assemble_endsAt_of_no_carrier hc₁ []), htimeline₂ (assemble_endsAt_of_no_carrier hc₂ [])]
  | some c =>
    have hc₂ : s₂.carrier = some c := hcarrier ▸ hc₁
    obtain ⟨bits, hb | ⟨op, later, hb⟩⟩ := encoderCommands_cases (encoderCommands s₁.params.encoder s₁.code)
    · rw [htimeline₁ (assemble_endsAt_frame hw₁ hc₁ hb), htimeline₂ (assemble_endsAt_frame hw₂ hc₂ (hcommands.trans hb)),
        frameRecords_congr hprofile hpin, hcap, hempty₁, hempty₂]
    · rw [htimeline₁ (assemble_endsAt_opening hw₁ hc₁ hb),
        htimeline₂ (assemble_endsAt_opening hw₂ hc₂ (hcommands.trans hb)),
        openingRecords_congr hprofile hpin, hcap, hempty₁, hempty₂]

/-! ## The derivation's checks -/

section Checks

/-! One equation for each check of R66 that fails, and one for a profile that passes all four. -/

variable {n : Numerics} {p : Profile}

/-- The first check: a frequency that is not positive; R66, R99. -/
theorem deriveCarrier_frequency (hf : p.frequencyHz ≤ 0) : deriveCarrier n p = .error 1 := by
  rw [deriveCarrier, if_pos (not_lt.2 hf)]

/-- The second check: a duty cycle outside (0,1); R66, R99. -/
theorem deriveCarrier_duty (hf : 0 < p.frequencyHz) (hd : p.dutyCycle ≤ 0 ∨ 1 ≤ p.dutyCycle) :
    deriveCarrier n p = .error 2 := by
  have hoff : ¬ (0 < p.dutyCycle ∧ p.dutyCycle < 1) := by simpa only [not_and_or, not_lt] using hd
  rw [deriveCarrier, if_neg (not_not.2 hf), if_pos hoff]

variable (hf : 0 < p.frequencyHz) (hd : 0 < p.dutyCycle ∧ p.dutyCycle < 1)
include hf hd

/-- The third check: a period of zero; R66, R99. -/
theorem deriveCarrier_periodZero (hzero : derivedPeriod n p.frequencyHz = 0) : deriveCarrier n p = .error 3 := by
  rw [deriveCarrier, if_neg (not_not.2 hf), if_neg (not_not.2 hd)]
  exact if_pos hzero

/-- The fourth check: a period, or a Duration of the profile, of more than 32 bits; R69, R99. -/
theorem deriveCarrier_wide (hpos : derivedPeriod n p.frequencyHz ≠ 0)
    (hwide : durationLimit ≤ derivedPeriod n p.frequencyHz ∨ p.durationsFit = false) :
    deriveCarrier n p = .error 4 := by
  rw [deriveCarrier, if_neg (not_not.2 hf), if_neg (not_not.2 hd)]
  exact (if_neg hpos).trans (if_pos hwide)

/-- A profile that passes the four checks has a carrier; R66. -/
theorem deriveCarrier_constructs (hpos : derivedPeriod n p.frequencyHz ≠ 0)
    (hfits : ¬ (durationLimit ≤ derivedPeriod n p.frequencyHz ∨ p.durationsFit = false)) :
    ∃ c, deriveCarrier n p = .ok c := by
  rw [deriveCarrier, if_neg (not_not.2 hf), if_neg (not_not.2 hd)]
  exact ⟨_, (if_neg hpos).trans (if_neg hfits)⟩

end Checks

/-- Which Durations of a profile are checked for their width; R69. -/
theorem durationsFit_eq_false_iff (p : Profile) :
    p.durationsFit = false ↔ durationLimit ≤ p.leadingPulse ∨ durationLimit ≤ p.leadingGap ∨
      durationLimit ≤ p.logicalOne.burstDuration ∨ durationLimit ≤ p.logicalOne.gapDuration ∨
      durationLimit ≤ p.logicalZero.burstDuration ∨ durationLimit ≤ p.logicalZero.gapDuration ∨
      (∃ d, p.trailingPulse = some d ∧ durationLimit ≤ d) := by
  rw [Profile.durationsFit, List.all_eq_false]
  simp [Profile.durations, or_and_right, exists_or]

/-- Settles O16: the statement's figures are those of the derivation, whose checks are taken one by one. -/
theorem carrierChecksInOrder : Obligations.CarrierChecksInOrder := by
  intro n p ha period on wide
  refine ⟨deriveCarrier_frequency, deriveCarrier_duty, fun hf hd0 hd1 => ?_⟩
  have hperiod : period = derivedPeriod n p.frequencyHz := by
    cases n with
    | exact => exact (roundHalfAway_eq_floor (by positivity)).symm
    | given => rfl
  have hon : on = derivedOn n (derivedPeriod n p.frequencyHz) p.dutyCycle := by
    cases n with
    | exact =>
      rw [derivedOn, roundHalfAway_eq_floor (by positivity), ← Int.cast_natCast, ← hperiod]
    | given => rfl
  have hwide : wide ↔ durationLimit ≤ derivedPeriod n p.frequencyHz ∨ p.durationsFit = false := by
    rw [durationsFit_eq_false_iff]
    simp only [wide, hperiod, durationLimit]
    norm_cast
  have hzero : period = 0 ↔ derivedPeriod n p.frequencyHz = 0 := by rw [hperiod, Int.natCast_eq_zero]
  rw [Ne, hzero, hwide]
  refine ⟨deriveCarrier_periodZero hf ⟨hd0, hd1⟩, deriveCarrier_wide hf ⟨hd0, hd1⟩, fun hpos hfits => ?_⟩
  obtain ⟨c, hc⟩ := deriveCarrier_constructs hf ⟨hd0, hd1⟩ hpos hfits
  obtain ⟨hp, ho, -, hle, hoff⟩ := deriveCarrier_figures ha hc
  exact ⟨c, hc, by omega, by omega, by omega⟩

/-! ## The cycle count -/

/-- Settles O19: the quotient of natural numbers is rounded down. -/
theorem numCyclesFloor : Obligations.NumCyclesFloor := by
  intro c d hpos
  exact ⟨Nat.div_mul_le_self .., (Nat.div_lt_iff_lt_mul hpos).1 (Nat.lt_succ_self _), Nat.div_le_self ..⟩

end Sys2Proof.Machine
end

section
/-! The append operations (41_timeline_append.md): the burst that is dropped (O21), the logical bit (O23), the append that
does not fit, alone (O25) and inside BUILD (O33), and the time that the appended records cover (O58). -/

namespace Sys2Proof.Machine

/-! ## Appends that come to their end -/

/-- A burst shorter than one cycle has no records; R72, R74. -/
theorem burstOf_eq_nil {p : Params} {c : Carrier} {d : Nat} (hd : d < c.cyclePeriod.toNat) : burstOf p c d = [] := by
  rw [burstOf, Nat.div_eq_of_lt hd]
  rfl

/-- Settles O21: the burst is a run of no appends, which reads neither the capacity nor the lifecycle state. -/
theorem shortBurstDropped : Obligations.ShortBurstDropped := by
  intro dur s c hi hc hd
  rw [exec, execAppendCarrier, issue_permitted (by simp [mayIssue, hi]), appendCarrier_eq_burstOf hc,
    burstOf_eq_nil hd, appendAll_nil, finish_done]
  rfl

/-- Settles O23: burst and gap, in the order of the encoding, are one run of appends, and its records fit. -/
theorem appendBitCompletes : Obligations.AppendBitCompletes := by
  intro b s c hi hw hc hfits
  rw [exec, execAppendBit, issue_permitted (by simp [mayIssue, hi]), appendBit_eq hc,
    appendAll_fits hw (le_of_fitsCap hfits), finish_done]
  rfl

/-! ## Appends that do not fit -/

/-- A micro-operation on an Unbuilt instance is inside BUILD; R80, R108, log 6. -/
theorem inBuild_of_unbuilt {s : State} (hi : s.issuer ≠ .host) (hw : s.wstate = .unbuilt) : s.inBuild = true := by
  simp [State.inBuild, hi, hw]

/-- What `TlOverflow(0)`, raised inside BUILD, writes beside the timeline; R98, R103. -/
theorem finishWith_overflow (s : State) (m : Memory) (last : State → State) :
    (Effect.raised { cause := .tlOverflow, info := 0#32 } { s with timeline := m }).finishWith true last =
      .next
        { s with
          timeline := m
          fault := s.fault ||| 0x80#8
          finfo := some 0#32
          wstate := .failed
          response := some 7#8 } := rfl

/-- Settles O25: each operation is, or begins with, a run of appends that overflows, and that ends it. -/
theorem appendOverflowFaults : Obligations.AppendOverflowFaults := by
  intro i ps s c n hw hc hops hcap hle hlt
  have hover := appendAll_overflow hw hcap hle hlt
  have hinside : s.issuer ≠ .host → s.inBuild = true := fun hi => inBuild_of_unbuilt hi hw
  rcases hops with ⟨d, rfl, hi, rfl⟩ | ⟨d, rfl, hi, rfl⟩ | ⟨b, rfl, hi, rfl⟩ | ⟨bits, rest, rfl, hi, hcs, rfl⟩
  · rw [exec, execAppendCarrier, issue_permitted (by simp [mayIssue, hi]), appendCarrier_eq_burstOf hc, hover,
      Effect.finish, hinside (by simp [hi]), finishWith_overflow]
  · rw [exec, execAppendGap, issue_permitted (by simp [mayIssue, hi]), appendGap, gapRecord, hover, Effect.finish,
      hinside (by simp [hi]), finishWith_overflow]
  · rw [exec, execAppendBit, issue_permitted (by simp [mayIssue, hi]), appendBit_eq hc, hover, Effect.finish,
      hinside (by simp [hi]), finishWith_overflow]
  · rw [exec, execPayload, issue_permitted (by simp [mayIssue, hi]), appendPayload, hcs, runPayload_append hc, hover,
      Effect.andThen, Effect.finish, hinside (by simp [hi]), finishWith_overflow]

/-- Settles O33: the overflow ends the assembly, whose first run of appends is the frame's or the opening's, and with it
BUILD, before the submission. -/
theorem buildOverflowFails : Obligations.BuildOverflowFails := by
  intro s c bits rest records n hi hw hr hc hcs hrecords hcap hle hlt
  have hover := appendAll_overflow hw hcap hle hlt
  have hassemble : assemble s = appendAll records s := by
    rcases hrecords with rfl | ⟨rfl, rfl⟩
    · rw [assemble_append hc hcs, hover, Effect.andThen, Effect.andThen]
    · exact assemble_eq hc (hcs.trans (List.append_nil _))
  rw [exec, execBuild, issue_permitted (by simp [mayIssue, hi]), if_neg (by simp [hw]), if_neg (by simp [hr]),
    hassemble, hover, finishWith_overflow, List.take_append, List.take_of_length_le hle]

/-! ## The time that records cover -/

@[simp] theorem totalTime_nil : totalTime [] = 0 := rfl

@[simp] theorem totalTime_cons (q : Pulse) (m : Memory) : totalTime (q :: m) = q.delay.toNat + totalTime m := by
  simp [totalTime]

@[simp] theorem totalTime_append (m m' : Memory) : totalTime (m ++ m') = totalTime m + totalTime m' := by
  simp [totalTime]

/-- A gap record takes its Duration; R75, R78. -/
theorem totalTime_gapRecord (d : Word32) : totalTime [gapRecord d] = d.toNat := by
  simp [gapRecord]

/-- A logical bit is its burst and its gap, one way round or the other; R76. -/
theorem bitRecords_eq_or (p : Params) (c : Carrier) (b : Bool) :
    let burst := burstOf p c (bitEncoding p.profile b).burstDuration
    let gap := [gapRecord (durationField (bitEncoding p.profile b).gapDuration)]
    bitRecords p c b = burst ++ gap ∨ bitRecords p c b = gap ++ burst :=
  ite_eq_or_eq ..

/-- The field of a gap record holds a bit's gap whole, where the Durations of the profile fit; R69. -/
theorem toNat_durationField_gap {prof : Profile} (hfit : prof.durationsFit = true) (b : Bool) :
    (durationField (bitEncoding prof b).gapDuration).toNat = (bitEncoding prof b).gapDuration := by
  have hmem : (bitEncoding prof b).gapDuration ∈ prof.durations := by
    cases b <;> simp [Profile.durations, bitEncoding]
  have hlt : (bitEncoding prof b).gapDuration < durationLimit := of_decide_eq_true (List.all_eq_true.1 hfit _ hmem)
  exact BitVec.toNat_ofNat _ 32 ▸ Nat.mod_eq_of_lt hlt

section Times

variable {p : Params} {c : Carrier} (hsum : c.onDuration.toNat + c.offDuration.toNat = c.cyclePeriod.toNat)
include hsum

/-- `n` cycles take `n` periods; R78. -/
theorem totalTime_burstRecords (pin : Fin 32) (n : Nat) :
    totalTime (burstRecords pin c n) = n * c.cyclePeriod.toNat := by
  induction n with
  | zero => simp [burstRecords]
  | succ n ih =>
    rw [burstRecords, totalTime_cons, totalTime_cons, ih, assertRecord_delay, clearRecord_delay, ← Nat.add_assoc, hsum,
      Nat.succ_mul, Nat.add_comm]

/-- A burst takes its whole cycles; R72, R78. -/
theorem totalTime_burstOf (d : Nat) :
    totalTime (burstOf p c d) = d / c.cyclePeriod.toNat * c.cyclePeriod.toNat := by
  rw [burstOf, ← burstRecords_eq_cycleRecords, totalTime_burstRecords hsum]

/-- A logical bit takes its burst's whole cycles and its gap, in either order; R76, R78. -/
theorem totalTime_bitRecords (hfit : p.profile.durationsFit = true) (b : Bool) :
    totalTime (bitRecords p c b) =
      (bitEncoding p.profile b).burstDuration / c.cyclePeriod.toNat * c.cyclePeriod.toNat +
        (bitEncoding p.profile b).gapDuration := by
  have hgap := toNat_durationField_gap hfit b
  rcases bitRecords_eq_or p c b with h | h
  · rw [h, totalTime_append, totalTime_burstOf hsum, totalTime_gapRecord, hgap]
  · rw [h, totalTime_append, totalTime_burstOf hsum, totalTime_gapRecord, hgap, Nat.add_comm]

end Times

/-- Settles O58: the sums of the records' delays, and for the NEC figures the same sums of its Durations. -/
theorem timeCovered : Obligations.TimeCovered := by
  refine ⟨fun p c d hsum => ⟨totalTime_burstOf hsum d, ?_, burstOf_eq_nil⟩, totalTime_gapRecord,
    fun p c b hsum hfit => totalTime_bitRecords hsum hfit b, totalTime_burstOf rfl 562, totalTime_burstOf rfl 9000,
    totalTime_bitRecords rfl (by decide) true, totalTime_bitRecords rfl (by decide) false⟩
  rw [totalTime_burstOf hsum, Nat.div_mul_self_eq_mod_sub_self]

end Sys2Proof.Machine
end

section
/-! BUILD (42_build.md): its completion (O31), its end at a command the encoder may not issue (O34), and the totals of a
NEC-extended BUILD (O38). -/

namespace Sys2Proof.Machine

/-! ## One BUILD -/

/-- A HOST's BUILD on an Unbuilt instance with the driver ready is the assembly, then the submission; R80, R82. -/
theorem exec_build_unbuilt {s : State} (hi : s.issuer = .host) (hw : s.wstate = .unbuilt)
    (hr : s.driver.ready = true) : exec .build s = (assemble s).finishWith true submit := by
  rw [exec, execBuild, issue_permitted (by simp [mayIssue, hi]), if_neg (by simp [hw]), if_neg (by simp [hr])]

/-- Settles O31: the assembly is one append of the frame's records, which fit, and the driver's id is not negative. -/
theorem buildCompletes : Obligations.BuildCompletes := by
  intro s c bits hi hw hr hc hb hfits hid
  rw [exec_build_unbuilt hi hw hr, assemble_eq hc hb, appendAll_fits hw (le_of_fitsCap hfits),
    Effect.finishWith, submit_eq, if_neg (not_lt.2 hid)]

/-- What `IllegalCmd`, raised inside BUILD, writes beside the timeline; R98, R103. -/
theorem finishWith_illegal (op : Word8) (s : State) (m : Memory) (last : State → State) :
    (Effect.raised { cause := .illegalCmd, info := op.setWidth 32 } { s with timeline := m }).finishWith true last =
      .next
        { s with
          timeline := m
          fault := s.fault ||| 0x20#8
          finfo := some (op.setWidth 32)
          wstate := .failed
          response := some 5#8 } := rfl

/-- Settles O34: the bits before the forbidden command are appended, they fit, and the command ends what is left. -/
theorem buildNonconformingEncoder : Obligations.BuildNonconformingEncoder := by
  intro s c bits op later hw hc hcs
  refine ⟨fun hi hr hfits => ?build, fun hi hfits => ?payload⟩
  case build =>
    rw [exec_build_unbuilt hi hw hr, assemble_append hc hcs, appendAll_fits hw (le_of_fitsCap hfits), Effect.andThen,
      runPayload, Effect.andThen, finishWith_illegal]
  case payload =>
    rw [exec, execPayload, issue_permitted (by simp [mayIssue, hi]), appendPayload, hcs, runPayload_append hc,
      appendAll_fits hw (le_of_fitsCap hfits), Effect.andThen, runPayload, Effect.finish,
      inBuild_of_unbuilt (by simp [hi]) hw, finishWith_illegal]

/-! ## The ones of a NEC code -/

@[simp] theorem necBits_length (code : Word32) : (necBits code).length = 32 := by
  simp [necBits, groupBits]

/-- A group of bits and its complement hold together as many ones as the group has bits; R91. -/
theorem count_true_map_add_map_not (f : Nat → Bool) (l : List Nat) :
    (l.map f).count true + (l.map (fun k => !f k)).count true = l.length := by
  simpa [List.count, List.countP_map, Function.comp_def] using (List.length_eq_countP_add_countP f (l := l)).symm

/-- The ones of the payload: those of the first two groups, and eight; R85. -/
theorem necBits_count_true (code : Word32) :
    (necBits code).count true = ((List.range 16).map (fun k => code.getLsbD (8 + k))).count true + 8 := by
  have hlast : ((List.range 8).map (fun k => code.getLsbD k)).count true +
      ((List.range 8).map (fun k => !code.getLsbD k)).count true = 8 := count_true_map_add_map_not code.getLsbD _
  rw [necBitsInEmissionOrder code, show (16 : Nat) = 8 + 8 from rfl, List.range_add]
  simp only [List.map_append, List.map_map, List.count_append, Function.comp_def, ← Nat.add_assoc, Nat.reduceAdd]
  omega

/-! ## The NEC frame -/

/-- An index behind the first of two lists is one of the second. -/
theorem getElem?_append_add {α : Type} {l m : List α} {n : Nat} (h : l.length = n) (i : Nat) :
    (l ++ m)[n + i]? = m[i]? := by
  rw [List.getElem?_append_right (by omega), h, Nat.add_sub_cancel_left]

/-- Of blocks of one length, place `i` of block `j`. -/
theorem getElem?_flatMap_block {α β : Type} {f : α → List β} {n i : Nat} (hf : ∀ a, (f a).length = n) (hi : i < n)
    (l : List α) (j : Nat) : (l.flatMap f)[n * j + i]? = l[j]?.bind (fun a => (f a)[i]?) := by
  induction l generalizing j with
  | nil => rfl
  | cons a l ih =>
    rw [List.flatMap_cons]
    cases j with
    | zero => simp [List.getElem?_append_left (show i < (f a).length from (hf a).symm ▸ hi)]
    | succ j => rw [Nat.mul_succ, Nat.add_comm _ n, Nat.add_assoc, getElem?_append_add (hf a), ih,
        List.getElem?_cons_succ]

/-- The records of a burst by index; R74. -/
theorem cycleRecords_getElem? (pin : Fin 32) (c : Carrier) {n k : Nat} (hk : k < 2 * n) :
    (cycleRecords pin c n)[k]? = some
      (if k % 2 = 0 then ⟨1#32 <<< pin.val, 0#32, c.onDuration⟩ else ⟨0#32, 1#32 <<< pin.val, c.offDuration⟩) := by
  simp [cycleRecords, hk]

/-- The carrier that `necCarrierTiming` derives from the NEC profile; R71. -/
abbrev necCarrier : Carrier := ⟨26#32, 13#32, 13#32⟩

/-- The parameters of a NEC-extended instance; R5 to R11. -/
abbrev necParams (pin : Fin 32) : Params := { defaultParams with txPin := pin }

section NecFrame

variable (pin : Fin 32)

/-- A NEC bit is a burst of 21 cycles, then its gap; R91. -/
theorem bitRecords_nec (b : Bool) :
    bitRecords (necParams pin) necCarrier b =
      cycleRecords pin necCarrier 21 ++ [⟨0#32, 0#32, if b then 1686#32 else 562#32⟩] := by
  cases b <;> simp [bitRecords, burstOf, defaultParams, necProfile]

@[simp] theorem bitRecords_nec_length (b : Bool) : (bitRecords (necParams pin) necCarrier b).length = 43 := by
  simp [bitRecords_nec]

theorem payload_nec_length (bits : List Bool) :
    (bits.flatMap (bitRecords (necParams pin) necCarrier)).length = 43 * bits.length := by
  simp [List.length_flatMap, Nat.mul_comm]

/-- The NEC frame: 346 cycles, the leading gap, the bits and 21 cycles; R85. -/
theorem frameRecords_nec (bits : List Bool) :
    frameRecords (necParams pin) necCarrier bits =
      cycleRecords pin necCarrier 346 ++ ([⟨0#32, 0#32, 4500#32⟩] ++
        (bits.flatMap (bitRecords (necParams pin) necCarrier) ++ cycleRecords pin necCarrier 21)) := by
  simp [frameRecords, openingRecords, trailingRecords, burstOf, defaultParams, necProfile]

section Index

variable {bits : List Bool}

/-- The leading pulse of a NEC frame, by index; R85. -/
theorem frameRecords_nec_leadingPulse {k : Nat} (hk : k < 692) :
    (frameRecords (necParams pin) necCarrier bits)[k]? = some
      (if k % 2 = 0 then ⟨1#32 <<< pin.val, 0#32, 13#32⟩ else ⟨0#32, 1#32 <<< pin.val, 13#32⟩) := by
  rw [frameRecords_nec, List.getElem?_append_left (by simpa using hk), cycleRecords_getElem? _ _ hk]

/-- A NEC frame from the leading gap on; R85. -/
theorem frameRecords_nec_behind_pulse (i : Nat) :
    (frameRecords (necParams pin) necCarrier bits)[692 + i]? =
      (⟨0#32, 0#32, 4500#32⟩ ::
        (bits.flatMap (bitRecords (necParams pin) necCarrier) ++ cycleRecords pin necCarrier 21))[i]? := by
  rw [frameRecords_nec, getElem?_append_add (cycleRecords_length ..), List.singleton_append]

/-- A NEC frame from its first bit on; R85. -/
theorem frameRecords_nec_behind_gap (i : Nat) :
    (frameRecords (necParams pin) necCarrier bits)[693 + i]? =
      (bits.flatMap (bitRecords (necParams pin) necCarrier) ++ cycleRecords pin necCarrier 21)[i]? := by
  rw [show 693 + i = 692 + (i + 1) by omega, frameRecords_nec_behind_pulse, List.getElem?_cons_succ]

/-- The bits of a NEC frame, by bit and index; R85. -/
theorem frameRecords_nec_bit {i j : Nat} (hi : i < 43) (hj : j < bits.length) :
    (frameRecords (necParams pin) necCarrier bits)[693 + 43 * j + i]? =
      (bitRecords (necParams pin) necCarrier bits[j])[i]? := by
  rw [Nat.add_assoc, frameRecords_nec_behind_gap,
    List.getElem?_append_left (by rw [payload_nec_length]; omega),
    getElem?_flatMap_block (bitRecords_nec_length pin) hi, List.getElem?_eq_getElem hj, Option.bind_some]

/-- The trailing pulse of a NEC frame, by index; R85. -/
theorem frameRecords_nec_trailingPulse (hlen : bits.length = 32) {k : Nat} (hk : k < 42) :
    (frameRecords (necParams pin) necCarrier bits)[2069 + k]? = some
      (if k % 2 = 0 then ⟨1#32 <<< pin.val, 0#32, 13#32⟩ else ⟨0#32, 1#32 <<< pin.val, 13#32⟩) := by
  rw [show 2069 + k = 693 + (43 * 32 + k) by omega, frameRecords_nec_behind_gap,
    getElem?_append_add (by rw [payload_nec_length, hlen]), cycleRecords_getElem? _ _ hk]

end Index

/-- The time of a NEC payload, by its ones and zeros; R78, R85. -/
theorem totalTime_payload_nec (bits : List Bool) :
    totalTime (bits.flatMap (bitRecords (necParams pin) necCarrier)) =
      546 * bits.length + 1686 * bits.count true + 562 * bits.count false := by
  induction bits with
  | nil => rfl
  | cons b bits ih =>
    have hbit : totalTime (bitRecords (necParams pin) necCarrier b) = 546 + if b then 1686 else 562 := by
      rw [totalTime_bitRecords rfl (show necProfile.durationsFit = true by decide)]
      cases b <;> simp [bitEncoding, defaultParams, necProfile]
    rw [List.flatMap_cons, totalTime_append, ih, hbit]
    cases b <;> simp <;> omega

/-- The time of a NEC frame; R85. -/
theorem totalTime_frameRecords_nec {bits : List Bool} (hlen : bits.length = 32) :
    totalTime (frameRecords (necParams pin) necCarrier bits) =
      8996 + 4500 + 32 * 546 + 1686 * bits.count true + 562 * (32 - bits.count true) + 546 := by
  have hcount := List.count_true_add_count_false bits
  have hburst (n : Nat) : totalTime (cycleRecords pin necCarrier n) = n * 26 := by
    rw [← burstRecords_eq_cycleRecords, totalTime_burstRecords rfl]
    rfl
  have hgap : totalTime [⟨0#32, 0#32, 4500#32⟩] = 4500 := rfl
  rw [frameRecords_nec, totalTime_append, totalTime_append, totalTime_append, hburst, hburst, hgap,
    totalTime_payload_nec, hlen]
  omega

/-- A fresh NEC-extended instance answers its first BUILD with the frame of its code's bits in the timeline, whatever
the driver's id; R81, R84. -/
theorem necBuild_timeline {s : State} (hp : s.params = necParams pin) (hc : s.carrier = some necCarrier)
    (hempty : s.timeline = []) (hw : s.wstate = .unbuilt) (hi : s.issuer = .host) (hr : s.driver.ready = true) :
    ∃ t, exec .build s = .next t ∧ t.timeline = frameRecords (necParams pin) necCarrier (necBits s.code) := by
  obtain ⟨t, ht⟩ : ∃ t, exec .build s = .next t := execBuild_answers hi hr (by simp [hc])
  have hb : encoderCommands s.params.encoder s.code = (necBits s.code).map .ok := by rw [hp]; rfl
  refine ⟨t, ht, ?_⟩
  rw [build_timeline hi hw ht (assemble_endsAt_frame hw hc hb), hp, hempty,
    appendRecords_fits (fun n hn => by simp [defaultParams] at hn)]
  rfl

end NecFrame

/-- Settles O38: the timeline is the NEC frame; each of its figures is that of one of the frame's four parts. -/
theorem necBuildTotals : Obligations.NecBuildTotals := by
  intro s pin hp hc hempty hw hi hr
  obtain ⟨t, ht, htimeline⟩ := necBuild_timeline pin hp hc hempty hw hi hr
  have hlen := necBits_length s.code
  have htime := totalTime_frameRecords_nec pin hlen
  have hones := necBits_count_true s.code
  have hmost : ((List.range 16).map (fun k => s.code.getLsbD (8 + k))).count true ≤ 16 := by
    simpa using List.count_le_length (a := true) (l := (List.range 16).map (fun k => s.code.getLsbD (8 + k)))
  refine ⟨t, ht, ?_⟩
  rw [tlLen_eq, htimeline]
  refine ⟨?length, fun k hk => frameRecords_nec_leadingPulse pin hk, frameRecords_nec_behind_pulse pin 0,
    fun j hj => ⟨fun k hk => ?burst, ?gap⟩, fun k hk => frameRecords_nec_trailingPulse pin hlen hk, htime, hones,
    by omega, by omega, fun hcode => ?sample⟩
  case length => simp [frameRecords_nec]
  case burst =>
    have hjlen : j < (necBits s.code).length := by omega
    rw [frameRecords_nec_bit pin (by omega) hjlen, bitRecords_nec,
      List.getElem?_append_left (by simpa using hk), cycleRecords_getElem? _ _ hk]
  case gap =>
    have hjlen : j < (necBits s.code).length := by omega
    rw [frameRecords_nec_bit pin (by omega) hjlen, bitRecords_nec, getElem?_append_add (cycleRecords_length ..) 0,
      List.getElem?_eq_getElem hjlen]
    rfl
  case sample =>
    have htwelve : (necBits s.code).count true = 12 := by rw [hcode]; decide
    exact ⟨htwelve, by rw [htime, htwelve]⟩

end Sys2Proof.Machine
end

section
/-! The encoder payload (43_encoder_payload.md): its completion (O24) and the NEC-extended bits (O29). -/

namespace Sys2Proof.Machine

/-- Settles O24: the encoder's bits, in list order, are one run of appends, and its records fit. -/
theorem payloadCompletes : Obligations.PayloadCompletes := by
  intro s c bits hi hw hc hb hfits
  rw [exec, execPayload, issue_permitted (by simp [mayIssue, hi]), appendPayload, hb, runPayload_eq hc,
    appendAll_fits hw (le_of_fitsCap hfits), finish_done]
  rfl

/-- The last sixteen bits of the payload are the code's low byte and its complement; R42. -/
theorem necBits_drop_sixteen (code : Word32) :
    (necBits code).drop 16 =
      (List.range 8).map (fun k => code.getLsbD k) ++ (List.range 8).map (fun k => !code.getLsbD k) := by
  rw [necBitsInEmissionOrder, List.append_assoc, List.drop_left' (by simp)]

/-- Bits 24 to 31 of the payload are the inverses of bits 16 to 23; R91. -/
theorem necBits_getElem?_complement (code : Word32) {j : Nat} (hj : j < 8) :
    (necBits code)[24 + j]? = (necBits code)[16 + j]?.map (!·) := by
  rw [show 24 + j = 16 + (8 + j) by omega, ← List.getElem?_drop, ← List.getElem?_drop (i := 16) (j := j),
    necBits_drop_sixteen, getElem?_append_add (by simp), List.getElem?_append_left (by simpa using hj)]
  simp [hj]

/-- The last sixteen bits of the payload hold eight ones, whatever the code; R91. -/
theorem necBits_drop_sixteen_count_true (code : Word32) : ((necBits code).drop 16).count true = 8 := by
  rw [necBits_drop_sixteen, List.count_append, count_true_map_add_map_not, List.length_range]

/-- The payload reads no bit of the code above bit 23; R91. -/
theorem necBits_congr {c₁ c₂ : Word32} (h : ∀ i < 24, c₁.getLsbD i = c₂.getLsbD i) : necBits c₁ = necBits c₂ := by
  have hgroup {f g : Nat → Bool} (hfg : ∀ k < 8, f k = g k) : (List.range 8).map f = (List.range 8).map g :=
    List.map_congr_left fun k hk => hfg k (List.mem_range.1 hk)
  rw [necBitsInEmissionOrder, necBitsInEmissionOrder, hgroup fun k hk => h (16 + k) (by omega),
    hgroup fun k hk => h (8 + k) (by omega), hgroup fun k hk => h k (by omega),
    hgroup fun k hk => congrArg (!·) (h k (by omega))]

/-- Settles O29: its parts are the laws of the payload's bits above and of a NEC bit's records. -/
theorem necPayloadProperties : Obligations.NecPayloadProperties := by
  refine ⟨fun code => ⟨necBits_length code, fun j hj => necBits_getElem?_complement code hj,
    necBits_drop_sixteen_count_true code⟩, bitRecords_nec, fun c₁ c₂ h => necBits_congr fun i hi => ?_⟩
  simpa [hi] using congrArg (·.getLsbD i) h

end Sys2Proof.Machine
end

section
/-! SEND (44_transmit.md): its request (O39, O40, O41), one turn of its poll loop (O42), and the loop as a run (O43,
O44). -/

namespace Sys2Proof.Machine

/-! ## The request -/

/-- A HOST's SEND on a Built instance makes one request and goes by the driver's answer; R93. -/
theorem exec_send_built {s : State} {id : Word32} (hi : s.issuer = .host) (hw : s.wstate = .built)
    (hid : s.waveId = some id) :
    exec .send s =
      if s.driver.takeSend.1 = .ok then
        .next
          { s with
            driver := s.driver.takeSend.2
            history := s.history ++ [.waveSend id .oneShot .ok]
            polling := true
            response := none }
      else
        .next
          ({ s with
            driver := s.driver.takeSend.2
            history := s.history ++ [Event.waveSend id .oneShot s.driver.takeSend.1] }.raise false
              { cause := .transmission, info := sendStatusCode s.driver.takeSend.1 }) := by
  rw [exec, execSend, issue_permitted (by simp [mayIssue, hi]), if_neg (by simp [hw]), hid]
  by_cases hok : s.driver.takeSend.1 = .ok
  · simp [hok, State.log]
  · simp [hok, State.log]

/-- The number of a status with which the driver rejects a request; R115. -/
theorem sendStatusCode_of_ne_ok {st : SendStatus} (h : st ≠ .ok) :
    sendStatusCode st = if st = .badId then 1#32 else 2#32 := by
  cases st with
  | ok => exact absurd rfl h
  | badId => rfl
  | badMode => rfl

/-- Settles O39: the driver's answer is `ok`, and the request is all that is done. -/
theorem sendRequestAccepted : Obligations.SendRequestAccepted := by
  intro s id hi hw hid hok
  rw [exec_send_built hi hw hid, if_pos hok]

/-- Settles O40: any other answer raises its status, outside BUILD, after the request. -/
theorem sendRequestRejected : Obligations.SendRequestRejected := by
  intro s id hi hw hid hrejected
  rw [exec_send_built hi hw hid, if_neg hrejected, sendStatusCode_of_ne_ok hrejected]
  rfl

/-- Settles O41: the lifecycle check comes before the request. -/
theorem sendNotBuilt : Obligations.SendNotBuilt := by
  intro s hi hw
  rw [exec, execSend, issue_permitted (by simp [mayIssue, hi]), if_pos hw, wstateCode_of_ne_built hw]
  rfl

/-! ## One turn of the poll loop -/

/-- The step of a SEND in progress is one turn of its loop; R93. -/
theorem step_polling {s : State} (hp : s.polling = true) : step s = .next (pollOnce s) := by
  simp [step, advance, hp]

/-- A busy answer waits one interval and goes on; R94. -/
theorem pollOnce_busy {s : State} (hq : s.driver.takePoll.1 = .busy) :
    pollOnce s =
      { s with
        driver := s.driver.takePoll.2
        history := s.history ++ [.busyQuery .busy, .wait s.params.pollInterval] } := by
  simp [pollOnce, hq, State.log]

/-- An idle answer ends the command with `OK`; R93. -/
theorem pollOnce_idle {s : State} (hq : s.driver.takePoll.1 = .idle) :
    pollOnce s =
      { s with
        driver := s.driver.takePoll.2
        history := s.history ++ [.busyQuery .idle]
        polling := false
        response := some 0#8 } := by
  simp [pollOnce, hq, State.log, State.respondOk]

/-- A hardware fault raises `Transmission(3)`, outside BUILD; R93, R116. -/
theorem pollOnce_hwFault {s : State} (hq : s.driver.takePoll.1 = .hwFault) :
    pollOnce s =
      { s with
        driver := s.driver.takePoll.2
        history := s.history ++ [.busyQuery .hwFault]
        polling := false
        fault := s.fault ||| 0x10#8
        finfo := some 3#32
        response := some 4#8 } := by
  simp [pollOnce, hq, State.log, State.raise, State.recordFault, faultBit, causeCode]

/-- Settles O42: the step is one turn, and the turn goes by the driver's answer. -/
theorem pollTurn : Obligations.PollTurn := by
  intro s hp
  rw [step_polling hp]
  exact ⟨fun hq => congrArg _ (pollOnce_busy hq), fun hq => congrArg _ (pollOnce_idle hq),
    fun hq => congrArg _ (pollOnce_hwFault hq)⟩

/-! ## The loop as a run -/

/-- A run of one step more begins with that step. -/
theorem run_succ {s t : State} (h : step s = .next t) (n : Nat) : core.run (n + 1) s = core.run n t := by
  simp only [Host.Core.run]
  rw [show core.step s = .next t from h]

/-- A request whose answer is already known takes it; R115. -/
theorem takeSend_cons {d : Driver} {st : SendStatus} {rest : List SendStatus} (h : d.sends = st :: rest) :
    d.takeSend = (st, { d with sends := rest }) := by
  simp [Driver.takeSend, h]

/-- A query whose answer is already known takes it; R116. -/
theorem takePoll_cons {d : Driver} {q : BusyAnswer} {rest : List BusyAnswer} (h : d.polls = q :: rest) :
    d.takePoll = (q, { d with polls := rest }) := by
  simp [Driver.takePoll, h]

/-- A turn whose answer is already known to be busy; R94. -/
theorem step_busy {s : State} {rest : List BusyAnswer} (hp : s.polling = true)
    (hpolls : s.driver.polls = .busy :: rest) :
    step s = .next
      { s with
        driver := { s.driver with polls := rest }
        history := s.history ++ [.busyQuery .busy, .wait s.params.pollInterval] } := by
  have hq := takePoll_cons hpolls
  rw [step_polling hp, pollOnce_busy (by rw [hq]), hq]

/-- A turn whose answer is already known to be idle; R93. -/
theorem step_idle {s : State} {rest : List BusyAnswer} (hp : s.polling = true)
    (hpolls : s.driver.polls = .idle :: rest) :
    step s = .next
      { s with
        driver := { s.driver with polls := rest }
        history := s.history ++ [.busyQuery .idle]
        polling := false
        response := some 0#8 } := by
  have hq := takePoll_cons hpolls
  rw [step_polling hp, pollOnce_idle (by rw [hq]), hq]

/-- The request of a HOST's SEND word whose answer is already known to be `ok`; R93. -/
theorem step_send_accepted {s : State} {id : Word32} {rest : List Input} {sends : List SendStatus}
    (hp : s.polling = false) (hi : s.inputs = .command .host 0x0600000000#40 :: rest) (hw : s.wstate = .built)
    (hid : s.waveId = some id) (hsends : s.driver.sends = .ok :: sends) :
    step s = .next
      { s with
        inputs := rest
        issuer := .host
        driver := { s.driver with sends := sends }
        history := s.history ++ [.waveSend id .oneShot .ok]
        polling := true
        response := none } := by
  have hst := takeSend_cons hsends
  rw [step_command hp hi, runWord_decoded (i := .send) rfl,
    sendRequestAccepted { s with inputs := rest, issuer := .host } id rfl hw hid (by rw [hst]), hst]

/-- A SEND in its loop whose driver is busy `n` times queries and waits `n` times and is still in the loop; R94, R95. -/
theorem run_busy {n : Nat} {s : State} {polls : List BusyAnswer} (hp : s.polling = true)
    (hpolls : s.driver.polls = List.replicate n .busy ++ polls) :
    core.run n s = .next
      { s with
        driver := { s.driver with polls := polls }
        history := s.history ++ (List.replicate n [Event.busyQuery .busy, .wait s.params.pollInterval]).flatten } := by
  induction n generalizing s with
  | zero =>
    obtain rfl : s.driver.polls = polls := hpolls
    simp [Host.Core.run]
  | succ n ih =>
    rw [run_succ (step_busy (rest := List.replicate n BusyAnswer.busy ++ polls) hp hpolls)]
    refine (ih ?_ ?_).trans ?_
    · exact hp
    · rfl
    · simp [List.replicate_succ]

/-- Settles O44: busy answers alone keep SEND in its loop. -/
theorem busyForeverHangs : Obligations.BusyForeverHangs := by
  intro n s polls hp hpolls
  exact ⟨_, run_busy hp hpolls, hp, rfl, rfl, rfl⟩

/-- An idle answer after `n` busy ones ends the SEND with `OK`; R93, R94. -/
theorem run_busy_idle {n : Nat} {s : State} {polls : List BusyAnswer} (hp : s.polling = true)
    (hpolls : s.driver.polls = List.replicate n .busy ++ .idle :: polls) :
    core.run (n + 1) s = .next
      { s with
        driver := { s.driver with polls := polls }
        history := s.history ++ (List.replicate n [Event.busyQuery .busy, .wait s.params.pollInterval]).flatten ++
          [.busyQuery .idle]
        polling := false
        response := some 0#8 } := by
  refine (run_add (run_busy hp hpolls)).trans (run_succ (step_idle ?_ ?_) 0)
  · exact hp
  · rfl

/-- Settles O43: the request is one step, the busy queries are `N`, and the idle one ends the command. -/
theorem sendBlocksForBusyPolls : Obligations.SendBlocksForBusyPolls := by
  intro N s id rest sends polls hp hi hw hid hsends hpolls
  rw [run_succ (step_send_accepted hp hi hw hid hsends), hp]
  refine run_busy_idle ?_ ?_
  · rfl
  · exact hpolls

end Sys2Proof.Machine
end

section
/-! The exceptions (60_exceptions.md): the driver's refusal of a waveform (O32), a second BUILD (O35), a command its
issuer may not issue (O9), and the initialisation that makes the driver ready (O56). -/

namespace Sys2Proof.Machine

/-! ## The faults of BUILD's own checks -/

/-- What `HwConstruct`, raised by BUILD's submission, writes; R101, R103. -/
theorem submit_refused {s : State} (hid : s.driver.takeCreate.1.toInt < 0) :
    submit s =
      { s with
        driver := s.driver.takeCreate.2
        history := s.history ++ [.waveCreate s.timeline s.driver.takeCreate.1]
        fault := s.fault ||| 0x08#8
        finfo := some s.driver.takeCreate.1
        wstate := .failed
        response := some 3#8 } := by
  rw [submit_eq, if_pos hid]
  rfl

/-- Settles O32: the assembly is one append of the frame's records, which fit, and the submission raises the driver's
id. -/
theorem buildDriverFailure : Obligations.BuildDriverFailure := by
  intro s c bits hi hw hr hc hb hfits hid
  rw [exec_build_unbuilt hi hw hr, assemble_eq hc hb, appendAll_fits hw (le_of_fitsCap hfits), Effect.finishWith]
  exact congrArg Host.Outcome.next (submit_refused hid)

/-- Settles O35: the lifecycle check comes before anything else BUILD does. -/
theorem secondBuildRefused : Obligations.SecondBuildRefused := by
  intro s hi hw
  rw [exec, execBuild, issue_permitted (by simp [mayIssue, hi]), if_pos hw, wstateCode_of_ne_unbuilt hw]
  rfl

/-! ## A command its issuer may not issue -/

/-- Every operation is issued through the permission check; R105, R108. -/
theorem exec_issued (i : Instr) : ∃ body, ∀ s, exec i s = issue i body s := by
  cases i with
  | appendCarrier dur => exact ⟨_, fun _ => rfl⟩
  | appendGap dur => exact ⟨_, fun _ => rfl⟩
  | appendBit b => exact ⟨_, fun _ => rfl⟩
  | payload => exact ⟨_, fun _ => rfl⟩
  | build => exact ⟨_, fun _ => rfl⟩
  | send => exact ⟨_, fun _ => rfl⟩

/-- So an operation its issuer may not issue is only its fault; R104, R108. -/
theorem exec_forbidden {i : Instr} {s : State} (h : mayIssue i s.issuer = false) :
    exec i s = .next (s.raiseIllegal i.opcode) := by
  obtain ⟨body, hbody⟩ := exec_issued i
  rw [hbody, issue_forbidden h]

/-- Settles O9: the operation's issuer is not the one agent that may issue it, and its `op` is the information word. -/
theorem unpermittedCommandRefused : Obligations.UnpermittedCommandRefused := by
  intro i s hissuer
  have hforbidden : mayIssue i s.issuer = false := by
    cases i with
    | _ => exact beq_false_of_ne hissuer
  rw [exec_forbidden hforbidden, raiseIllegal_writes]
  cases i with
  | _ => rfl

/-! ## The driver's initialisation -/

/-- The step outside the poll loop takes the next input; R127. -/
theorem step_input {s : State} {x : Input} {rest : List Input} (hp : s.polling = false) (hi : s.inputs = x :: rest) :
    step s = takeInput x { s with inputs := rest } := by
  simp [step, advance, hp, hi]

/-- The driver is ready when both primitives have been called; R113, R124. -/
theorem ready_iff (d : Driver) : d.ready = true ↔ d.pinConfigured = true ∧ d.bufferCleared = true :=
  Bool.and_eq_true_iff

/-- Settles O56: each primitive is one input, and the driver's two flags are all that readiness reads. -/
theorem driverInitialisation : Obligations.DriverInitialisation := by
  intro s rest hp
  refine ⟨fun hi => ?configPin, fun hi => ?clearBuffer, ready_iff s.driver⟩
  case configPin => rw [step_input hp hi]; rfl
  case clearBuffer => rw [step_input hp hi]; rfl

end Sys2Proof.Machine
end

section
/-! Reset (70_reset_and_hazards.md): the sequence and what it establishes (O12, O13, O46), the driver's initialisation
as BUILD's premise (O36), and the end of a run (O8). -/

namespace Sys2Proof.Machine

/-! ## The reset sequence -/

/-- What the history gains at a reset: the release of a Built instance's id, and nothing otherwise; R122. -/
theorem releaseWave_history_append (s : State) :
    s.releaseWave.history = s.history ++ (if s.wstate = .built then s.waveId.toList.map Event.release else []) := by
  rw [releaseWave_history]
  split
  · rfl
  · rw [List.append_nil]

/-- Settles O46: the step's next state is the reset sequence's, which establishes the invariant. -/
theorem resetEstablishesInvariant : Obligations.ResetEstablishesInvariant := by
  intro s hadmissible htakes
  obtain ⟨x, rest, -, -, hstep⟩ := step_reset htakes
  exact ⟨_, hstep, resetWith_inv (s := { s with inputs := rest }) hadmissible x⟩

/-- The step that takes a reset input is the reset sequence; R120, R127. -/
theorem step_reset_input {s : State} {x : Word32} {rest : List Input} (hp : s.polling = false)
    (hi : s.inputs = .reset x :: rest) : step s = .next ({ s with inputs := rest }.resetWith x) :=
  step_input hp hi

/-- Settles O12: most registers are set whatever the derivation answers, and its two outcomes decide the rest. -/
theorem resetSequence : Obligations.ResetSequence := by
  intro s x rest hp hi
  refine ⟨_, step_reset_input hp hi, resetWith_waveId .., resetWith_timeline .., ?tlLen, resetWith_code ..,
    resetWith_params .., resetWith_driver .., resetWith_inputs .., ?history, ?derived⟩
  case tlLen => rw [tlLen_eq, resetWith_timeline]; rfl
  case history => rw [resetWith_history, releaseWave_history_append]
  case derived =>
    rcases resetWith_cases { s with inputs := rest } x with ⟨c, hd, hc, hw, hf, hinfo⟩ | ⟨r, hd, hc, hw, hf, hinfo⟩
    · rw [hd]; exact ⟨hf, hinfo, hw, hc⟩
    · rw [hd]; exact ⟨hf, hinfo, hw, hc⟩

/-- Settles O13: the reset sequence with a derivation that fails, after which BUILD and SEND meet a Failed instance; the
NEC profile derives its carrier. -/
theorem resetValidationFault : Obligations.ResetValidationFault := by
  refine ⟨fun s x rest r hp hi hd => ?fails, ?nec⟩
  case fails =>
    obtain ⟨t, hstep, hid, htl, -, hcode, hparams, -, -, hhistory, hderived⟩ := resetSequence s x rest hp hi
    rw [hd] at hderived
    obtain ⟨hf, hinfo, hw, hc⟩ := hderived
    have hbuild := secondBuildRefused { t with issuer := .host } rfl (by simp [hw])
    have hsend := sendNotBuilt { t with issuer := .host } rfl (by simp [hw])
    exact ⟨t, hstep, hf, hinfo, hw, hc, hid, htl, hcode, hparams, hhistory, ⟨_, hbuild, rfl, hw⟩, ⟨_, hsend, rfl, hw⟩⟩
  case nec => rw [necCarrierTiming .exact rfl]; rfl

/-! ## BUILD's premise and the end of a run -/

/-- Settles O36: the lifecycle check passes, and the readiness check is the next. -/
theorem buildWithoutDriverRefused : Obligations.BuildWithoutDriverRefused := by
  intro s hi hw hr
  rw [exec, execBuild, issue_permitted (by simp [mayIssue, hi]), if_neg (by simp [hw]), if_pos hr]

/-- A run is over where no SEND polls and no input is left; R134. -/
theorem runOver_iff (s : State) : s.runOver = true ↔ s.polling = false ∧ s.inputs = [] := by
  simp [State.runOver]

/-- Settles O8: outside the poll loop, the step with no input to take answers the state itself. -/
theorem runOverWaits : Obligations.RunOverWaits := by
  intro s hover
  obtain ⟨hp, hi⟩ := (runOver_iff s).1 hover
  simp [step, advance, hp, hi]

end Sys2Proof.Machine
end
